-- ==== Sys2Proof/Word.lean ====
section
/-! DEFINITION. The byte and the byte sequence, the only data the block moves (spec 00_scope.md R9, R10). -/

namespace Sys2Proof

/-- One 8-bit byte, unsigned, bit 0 least significant (R9). -/
abbrev Byte := BitVec 8

/-- A frame: the byte sequence of one command or of one response, its boundary marked by the
transport (30_encoding.md R100, R101; 92_eei_decisions.md D18). -/
abbrev Frame := List Byte

end Sys2Proof
end

