-- ==== Sys2Proof/Config.lean ====
section
/-! DEFINITION. What is fixed when a block is built or constructed (00_scope.md R8, 10_state.md R33 to R35),
the types of those values, and the free values the spec leaves open. -/

namespace Sys2Proof

/-- The answer of the bus sink to one transfer (10_state.md R38, 60_exceptions.md R203). -/
inductive SinkAnswer where
  | ok
  | fail
  deriving DecidableEq, Repr, Inhabited

/-- A logical channel of a colour; `WIRE_ORDER` names each by a 2-bit code (30_encoding.md R92). -/
inductive Channel where
  | red
  | green
  | blue
  deriving DecidableEq, Repr, Inhabited

/-- The six legal values of `WIRE_ORDER` (30_encoding.md R92), named by the order of the channels on the wire.
A block whose 6-bit field is no permutation is never constructed (70_reset_and_hazards.md R222), so the type
holds the six and nothing else. -/
inductive WireOrder where
  | rgb
  | rbg
  | grb
  | gbr
  | brg
  | bgr
  deriving DecidableEq, Repr, Inhabited

/-- `POST_FAIL_BUFFER`: what a failed transfer leaves in the Frame Buffer (92_eei_decisions.md D9). -/
inductive PostFailBuffer where
  | drained
  | retained
  deriving DecidableEq, Repr, Inhabited

/-- `SINK_BIT_ORDER`: the order in which the sink shifts the bits of a byte onto the line
(20_memory.md R65). -/
inductive SinkBitOrder where
  | lsbFirst
  | msbFirst
  deriving DecidableEq, Repr, Inhabited

/-- The configuration registers of one block: read-only to every command (10_state.md R33 to R35, R41). -/
structure BlockConfig where
  /-- `NUM_LEDS`, any natural number (R33). -/
  numLeds : Nat
  /-- `WIRE_ORDER` (R34). -/
  wireOrder : WireOrder
  /-- `FB_CAPACITY`: `none` is the unbounded buffer (R35). -/
  fbCapacity : Option Nat
  /-- `POST_FAIL_BUFFER` (R41). -/
  postFailBuffer : PostFailBuffer
  deriving DecidableEq, Repr

/-- The construction argument `NUM_LEDS` of the block at reset: OPEN in the spec (R8, D12), so no value of it
can be proved. Log entry 1. -/
opaque Config.numLeds : Nat

/-- The free answer of the sink to its `k`-th transfer (R203, 93_implementation_defined.md I2): either answer may
come, and nothing about it can be proved. Log entry 5. -/
opaque Config.sinkAnswer (k : Nat) : SinkAnswer

/-- `SINK_BIT_ORDER`, OPEN without a default (D10); no command reads it. Log entry 8. -/
opaque Config.sinkBitOrder : SinkBitOrder

/-- `NATIVE_BIT_RATE`, OPEN (D11); no command reads it. Log entry 8. -/
opaque Config.nativeBitRate : Nat

/-- The reference build constants (R8; 70_reset_and_hazards.md R221): `GRB`, the growable buffer of the reference
software, `DRAINED`. Log entries 1 and 2. -/
def Config.reference : BlockConfig where
  numLeds := Config.numLeds
  wireOrder := .grb
  fbCapacity := none
  postFailBuffer := .drained

end Sys2Proof
end

