-- ==== Sys2Proof/Syntax.lean ====
section
/-! DEFINITION. The six commands of the opcode table (30_encoding.md R100) and their operands. -/

namespace Sys2Proof

/-- An ordered triple of channel bytes in logical order red, green, blue (00_scope.md R13). -/
structure Color where
  r : Byte
  g : Byte
  b : Byte
  deriving DecidableEq, Repr

/-- One SET_PIXELS item: the two equivalent input forms of a colour (30_encoding.md R105). -/
inductive Item where
  /-- A typed triple, tag 0x00. -/
  | triple (c : Color)
  /-- A hex string, tag 0x01: its characters, one byte each. -/
  | hex (chars : List Byte)
  deriving DecidableEq, Repr

/-- The command set, one constructor per row of the opcode table. -/
inductive Instr where
  /-- ENCODE_CHANNEL (40_symbol_encoder.md R120). -/
  | encodeChannel (b : Byte)
  /-- TO_WIRE_ORDER (41_reorder_and_color_input.md R140). -/
  | toWireOrder (c : Color)
  /-- PARSE_HEX (R142). -/
  | parseHex (chars : List Byte)
  /-- SET_PIXELS (42_panel_controller.md R162). -/
  | setPixels (items : List Item)
  /-- FLUSH (R165). -/
  | flush
  /-- CLEAR_ALL (R166). -/
  | clearAll
  deriving DecidableEq, Repr

end Sys2Proof
end

