-- ==== Sys2Proof/WellFormed.lean ====
section
/-! DEFINITION. Which commands a frame can hold: the ranges of the length fields (30_encoding.md R104, R105). -/

namespace Sys2Proof

/-- A hex-string item holds its length in one byte (R105). -/
def Item.wellFormed : Item → Bool
  | .triple _ => true
  | .hex chars => decide (chars.length ≤ 255)

/-- PARSE_HEX: `0 <= L <= 255` (R104); SET_PIXELS: `0 <= N <= 2^32 - 1` and every item within its field (R105);
the others have no bound to keep. -/
def Instr.wellFormed : Instr → Bool
  | .encodeChannel _ => true
  | .toWireOrder _ => true
  | .parseHex chars => decide (chars.length ≤ 255)
  | .setPixels items => decide (items.length ≤ 4294967295) && items.all Item.wellFormed
  | .flush => true
  | .clearAll => true

end Sys2Proof
end

