-- ==== Sys2Proof/Decode.lean ====
section
/-! DEFINITION. The decoder of command frames, total on any bytes (30_encoding.md R100 to R110), the encoder beside
it, and the reading of the host's numbered words. -/

namespace Sys2Proof

/-- Why a frame is illegal (30_encoding.md R108, its four cases in order). Each is answered `IllegalCommand`. -/
inductive DecodeError where
  | emptyFrame
  | unknownOpcode (op : Byte)
  | wrongLength (op : Byte)
  | badItemTag (tag : Byte)
  deriving DecidableEq, Repr

/-- The 32-bit little-endian count of SET_PIXELS (R105). -/
def le32 (n0 n1 n2 n3 : Byte) : Nat :=
  n0.toNat + 256 * n1.toNat + 65536 * n2.toNat + 16777216 * n3.toNat

/-- The four bytes of a 32-bit little-endian count (R105). -/
def le32Bytes (n : Nat) : List Byte :=
  [BitVec.ofNat 8 n, BitVec.ofNat 8 (n / 256), BitVec.ofNat 8 (n / 65536), BitVec.ofNat 8 (n / 16777216)]

/-- Read one SET_PIXELS item and give back the bytes after it (R105). -/
def takeItem : Frame → Except DecodeError (Item × Frame)
  | [] => .error (.wrongLength 0x10)
  | tag :: rest =>
    if tag = 0x00 then
      match rest with
      | r :: g :: b :: rest' => .ok (.triple ⟨r, g, b⟩, rest')
      | _ => .error (.wrongLength 0x10)
    else if tag = 0x01 then
      match rest with
      | l :: cs =>
        if l.toNat ≤ cs.length then .ok (.hex (cs.take l.toNat), cs.drop l.toNat)
        else .error (.wrongLength 0x10)
      | [] => .error (.wrongLength 0x10)
    else .error (.badItemTag tag)

/-- Read `n` SET_PIXELS items in order and give back the bytes after the last (R105). -/
def takeItems : Nat → Frame → Except DecodeError (List Item × Frame)
  | 0, f => .ok ([], f)
  | n + 1, f =>
    match takeItem f with
    | .error e => .error e
    | .ok (item, f') =>
      match takeItems n f' with
      | .error e => .error e
      | .ok (items, f'') => .ok (item :: items, f'')

/-- SET_PIXELS after its opcode byte: the count, then exactly that many items (R105, R108 case 3). -/
def decodeSetPixels : Frame → Except DecodeError Instr
  | n0 :: n1 :: n2 :: n3 :: rest =>
    match takeItems (le32 n0 n1 n2 n3) rest with
    | .error e => .error e
    | .ok (items, []) => .ok (.setPixels items)
    | .ok (_, _ :: _) => .error (.wrongLength 0x10)
  | _ => .error (.wrongLength 0x10)

/-- PARSE_HEX after its opcode byte: `L`, then exactly `L` characters (R104). -/
def decodeParseHex : Frame → Except DecodeError Instr
  | l :: chars => if l.toNat = chars.length then .ok (.parseHex chars) else .error (.wrongLength 0x03)
  | [] => .error (.wrongLength 0x03)

/-- The decoder: every byte sequence is one well-framed command or illegal, by name (R100, R108). -/
def decode : Frame → Except DecodeError Instr
  | [] => .error .emptyFrame
  | op :: rest =>
    if op = 0x01 then
      match rest with
      | [b] => .ok (.encodeChannel b)
      | _ => .error (.wrongLength op)
    else if op = 0x02 then
      match rest with
      | [r, g, b] => .ok (.toWireOrder ⟨r, g, b⟩)
      | _ => .error (.wrongLength op)
    else if op = 0x03 then decodeParseHex rest
    else if op = 0x10 then decodeSetPixels rest
    else if op = 0x11 then
      match rest with
      | [] => .ok .flush
      | _ => .error (.wrongLength op)
    else if op = 0x12 then
      match rest with
      | [] => .ok .clearAll
      | _ => .error (.wrongLength op)
    else .error (.unknownOpcode op)

/-- The bytes of one SET_PIXELS item (R105). -/
def Item.encode : Item → Frame
  | .triple c => [0x00, c.r, c.g, c.b]
  | .hex chars => 0x01 :: BitVec.ofNat 8 chars.length :: chars

/-- The opcode of each command (R100). -/
def Instr.opcode : Instr → Byte
  | .encodeChannel _ => 0x01
  | .toWireOrder _ => 0x02
  | .parseHex _ => 0x03
  | .setPixels _ => 0x10
  | .flush => 0x11
  | .clearAll => 0x12

/-- The operand bytes of each command (R102 to R107). -/
def Instr.operandBytes : Instr → Frame
  | .encodeChannel b => [b]
  | .toWireOrder c => [c.r, c.g, c.b]
  | .parseHex chars => BitVec.ofNat 8 chars.length :: chars
  | .setPixels items => le32Bytes items.length ++ items.flatMap Item.encode
  | .flush => []
  | .clearAll => []

/-- The frame of a well-formed command: its opcode, then its operand bytes (R100). -/
def encode (i : Instr) : Frame := i.opcode :: i.operandBytes

/-- How many bytes `n` SET_PIXELS items take when the given bytes are read with zeros after them (R105, R110). -/
def itemsLength : Nat → Frame → Nat
  | 0, _ => 0
  | n + 1, [] => 4 * (n + 1)
  | n + 1, tag :: rest =>
    if tag = 0x00 then 4 + itemsLength n (rest.drop 3)
    else if tag = 0x01 then
      2 + (rest.headD 0).toNat + itemsLength n (rest.drop (1 + (rest.headD 0).toNat))
    else 1

/-- The length a frame must have, told from its own bytes as R110 says; a byte the given bytes do not reach
reads as zero. -/
def frameLength : Frame → Nat
  | [] => 0
  | op :: rest =>
    if op = 0x01 then 2
    else if op = 0x02 then 4
    else if op = 0x03 then 2 + (rest.headD 0).toNat
    else if op = 0x10 then
      5 + itemsLength (le32 (rest.getD 0 0) (rest.getD 1 0) (rest.getD 2 0) (rest.getD 3 0)) (rest.drop 4)
    else 1

/-- The low `n` bytes of `w`, least significant first. -/
def wordBytes : Nat → Nat → Frame
  | 0, _ => []
  | n + 1, w => BitVec.ofNat 8 w :: wordBytes n (w / 256)

/-- The frame the host's word stands for: `nbits` bits of `w` as bytes, bit 0 least significant in the first byte,
then zeros up to the length the frame's own bytes ask for. -/
def tableFrame (nbits w : Nat) : Frame :=
  let bytes := wordBytes ((nbits + 7) / 8) w
  bytes ++ List.replicate (frameLength bytes - bytes.length) 0

/-- The command this decoder reads from the host's word, none where it refuses the frame. -/
def decodeTableWord (nbits w : Nat) : Option Instr := (decode (tableFrame nbits w)).toOption

end Sys2Proof
end

