-- ==== Sys2Proof/Machine/Flags.lean ====
section
/-! DEFINITION. The block has no flags (10_state.md R32): the outcome of a command is its response status, whose
codes are 60_exceptions.md R190. -/

namespace Sys2Proof.Machine

/-- The status codes: success and the four errors (R190). -/
inductive Status where
  | ok
  | invalidColorFormat
  | busTransferError
  | illegalCommand
  | bufferOverflow
  deriving DecidableEq, Repr

/-- The first byte of a response frame (R190). -/
def Status.code : Status → Byte
  | .ok => 0x00
  | .invalidColorFormat => 0x01
  | .busTransferError => 0x02
  | .illegalCommand => 0x03
  | .bufferOverflow => 0x04

end Sys2Proof.Machine
end

