-- ==== Sys2Proof/Machine/Symbol.lean ====
section
/-! DEFINITION. The Symbol Encoder, bit by bit as 30_encoding.md R80 to R82 build it. -/

namespace Sys2Proof.Machine

/-- The 3-bit symbol of one source bit: leading low, data bit, trailing high, first emitted first (R80). -/
def symbol (d : Bool) : List Bool := [false, d, true]

/-- The 24-bit symbol sequence of a channel byte, source bit 0 first (R81). -/
def symbolSequence (b : Byte) : List Bool := (List.range 8).flatMap fun k => symbol (b.getLsbD k)

/-- The number whose bit `i` is element `i` of the list (00_scope.md R9). -/
def bitsValue : List Bool → Nat
  | [] => 0
  | x :: xs => x.toNat + 2 * bitsValue xs

/-- Eight bits packed into a byte, the earliest bit least significant (R82). -/
def packByte (bits : List Bool) : Byte := BitVec.ofNat 8 (bitsValue (bits.take 8))

/-- `enc(b)`: groups 0, 1 and 2 of the symbol sequence, one byte each (R82). -/
def encChannel (b : Byte) : List Byte :=
  let sym := symbolSequence b
  [packByte sym, packByte (sym.drop 8), packByte (sym.drop 16)]

end Sys2Proof.Machine
end

