-- ==== Sys2Proof/Machine/Operands.lean ====
section
/-! DEFINITION. The operand forms: the wire-order permutation (30_encoding.md R92, 41_reorder_and_color_input.md
R140, R141), the hex colour string (30_encoding.md R93, R94) and the normalisation of an item (R145). -/

namespace Sys2Proof.Machine

/-- The three slots of `WIRE_ORDER`, SLOT0 first: which logical channel each wire position sends (R92). -/
def slots : WireOrder → Channel × Channel × Channel
  | .rgb => (.red, .green, .blue)
  | .rbg => (.red, .blue, .green)
  | .grb => (.green, .red, .blue)
  | .gbr => (.green, .blue, .red)
  | .brg => (.blue, .red, .green)
  | .bgr => (.blue, .green, .red)

/-- `pick` (R141): the byte of the named channel. -/
def pick : Channel → Color → Byte
  | .red, c => c.r
  | .green, c => c.g
  | .blue, c => c.b

/-- `to_wire_order` (R140): the channel bytes in wire order. -/
def wireBytes (o : WireOrder) (c : Color) : List Byte :=
  [pick (slots o).1 c, pick (slots o).2.1 c, pick (slots o).2.2 c]

/-- The pixel group of one colour: the three channel encodings in wire order (30_encoding.md R90). -/
def pixelGroup (o : WireOrder) (c : Color) : List Byte := (wireBytes o c).flatMap encChannel

/-- The colour of a dark LED, `Color(0, 0, 0)` (42_panel_controller.md R166). -/
def black : Color := ⟨0, 0, 0⟩

/-- The value of a hex digit, none for any other byte (R94). -/
def hexValue (c : Byte) : Option Byte :=
  if 0x30 ≤ c ∧ c ≤ 0x39 then some (c - 0x30)
  else if 0x41 ≤ c ∧ c ≤ 0x46 then some (c - 0x37)
  else if 0x61 ≤ c ∧ c ≤ 0x66 then some (c - 0x57)
  else none

/-- A pair of hex digits, the first the high nibble (R94; PRESUMED by the spec from general knowledge, log
entry 7). -/
def hexPair (first second : Byte) : Option Byte :=
  match hexValue first, hexValue second with
  | some h, some l => some (16 * h + l)
  | _, _ => none

/-- The colour of a hex string, none where it is malformed: length not 6, or a character that is no hex digit
(R93, R142). -/
def parseColor : List Byte → Option Color
  | [c0, c1, c2, c3, c4, c5] =>
    match hexPair c0 c1, hexPair c2 c3, hexPair c4 c5 with
    | some r, some g, some b => some ⟨r, g, b⟩
    | _, _, _ => none
  | _ => none

/-- `normalize` (R145): a typed triple is its colour (R144), a hex string is parsed. -/
def normalize : Item → Option Color
  | .triple c => some c
  | .hex chars => parseColor chars

/-- Phase 1 of SET_PIXELS: every item normalised, in list order, none where one is malformed
(42_panel_controller.md R162). -/
def normalizeAll : List Item → Option (List Color)
  | [] => some []
  | item :: items =>
    match normalize item, normalizeAll items with
    | some c, some cs => some (c :: cs)
    | _, _ => none

/-- Phase 2 of SET_PIXELS: `FB_CAPACITY = some n and 9*N > n` (R162). -/
def overflows (capacity : Option Nat) (count : Nat) : Bool :=
  match capacity with
  | none => false
  | some n => decide (n < 9 * count)

end Sys2Proof.Machine
end

