-- ==== Sys2Proof/Machine/State.lean ====
section
/-! DEFINITION. The whole state of the block (10_state.md R41), with the inputs and outputs of a step beside it,
the reasons a step can stop, and the state after reset (70_reset_and_hazards.md R221). -/

namespace Sys2Proof.Machine

/-- One transfer event: the payload the sink was handed and its answer (10_state.md R38). -/
structure TransferEvent where
  payload : List Byte
  answer : SinkAnswer
  deriving DecidableEq, Repr

/-- The block. `config`, `fb` and `hist` are the spec's state (R41: "No other state exists"); the last four fields
are the model's own, since a command is a function of (configuration, state, operands, sink answer) to (state,
response, transfer events) (00_scope.md R12) and a step has the state alone to read and to write. -/
structure State where
  /-- The configuration registers, read-only to every command (R33 to R35). -/
  config : BlockConfig
  /-- `FB`, the Frame Buffer (R36). -/
  fb : List Byte
  /-- `HIST`, the transfer history, oldest event first (R38). -/
  hist : List TransferEvent
  /-- Input: the command frames the host has yet to have run, in issue order (R31). Log entry 3. -/
  inbox : List Frame
  /-- Output: the response frames given so far, in order; nothing reads it (30_encoding.md R101). Log entry 4. -/
  responses : List Frame
  /-- Input: answers the sink will give to the coming transfers, before the free ones. Log entry 5. -/
  sinkAnswers : List SinkAnswer
  /-- How many answers the sink has given: the argument of the free answer. Log entry 5. -/
  sinkDraws : Nat
  deriving DecidableEq, Repr

/-- The faults of the model: one, and no command raises it. -/
inductive Fault where
  /-- An access to the Frame Buffer at an index the spec does not give: raised by `memRead` at or past `FB.len` and
  by `memWrite` away from `FB.len`. The spec says where an access is admitted (00_scope.md R11, 20_memory.md R61); that
  another one faults is the model's choice, log entry 6. Safe: the operation stops. -/
  | frameBufferIndex (index : Nat)
  deriving DecidableEq, Repr

/-- The refusals of the model: no instruction is refused. -/
inductive Refusal where
  /-- An instruction without a meaning yet, raised by its arm of `exec`; no arm raises it. Safe. -/
  | notModelled (mnemonic : String)
  deriving DecidableEq, Repr

/-- The block right after construction with configuration `c`: idle, buffer and history empty (R221). -/
def State.ofConfig (c : BlockConfig) : State where
  config := c
  fb := []
  hist := []
  inbox := []
  responses := []
  sinkAnswers := []
  sinkDraws := 0

/-- Reset is construction (70_reset_and_hazards.md R220), here with the reference build constants. -/
def State.reset : State := State.ofConfig Config.reference

end Sys2Proof.Machine
end

