-- ==== Sys2Proof/Machine/Ops.lean ====
section
/-! DEFINITION. The named operations of the block: the Frame Buffer primitives (00_scope.md R11, 20_memory.md R61,
R62), the response, the one error operation (60_exceptions.md R196), the flush and append steps
(42_panel_controller.md R160, R161) and the arrival of a frame. -/

namespace Sys2Proof.Machine

/-! ## The Frame Buffer -/

/-- `MemRead(i, 1)`: defined for `0 <= i < FB.len` (R11). -/
def memRead (index : Nat) (s : State) : Except Fault Byte :=
  match s.fb[index]? with
  | some v => .ok v
  | none => .error (.frameBufferIndex index)

/-- One byte appended: `MemWrite(FB.len, 1, v); FB.len <- FB.len + 1` (R61). -/
def fbPush (v : Byte) (s : State) : State := { s with fb := s.fb ++ [v] }

/-- `MemWrite(i, 1, v)`: admitted only for `i = FB.len` (R11, R61). -/
def memWrite (index : Nat) (v : Byte) (s : State) : Except Fault State :=
  if index = s.fb.length then .ok (fbPush v s) else .error (.frameBufferIndex index)

/-- `FbAppend(bytes)`: the bytes pushed in order (R11). -/
def fbAppend (bytes : List Byte) (s : State) : State := bytes.foldl (fun s v => fbPush v s) s

/-- `FbClear()` (R11). -/
def fbClear (s : State) : State := { s with fb := [] }

/-- The canonical form of a memory held as cells: addresses strictly rising. An address that is not listed does
not exist, so no listed cell can equal what an unlisted one reads as. -/
def Memory.wf (m : List Host.Cell) : Bool := decide (m.Pairwise fun a b => a.1 < b.1)

/-- The Frame Buffer as (address, byte) cells; the state holds it as the dense sequence it is (R60). -/
def State.memory (s : State) : List Host.Cell := s.fb.zipIdx.map fun cell => (cell.2, cell.1)

/-! ## Responses and errors -/

/-- `respond(status, bytes)`: the command's one response frame (30_encoding.md R101). -/
def respond (status : Status) (bytes : List Byte) (s : State) : State :=
  { s with responses := s.responses ++ [status.code :: bytes] }

/-- `raise`: how every error is taken (60_exceptions.md R196). The response is the code alone, nothing is saved, no
mode changes and control goes nowhere; there is nothing to return from, the next command runs at once (R197). -/
def raise (error : Status) (s : State) : State := respond error [] s

/-! ## The sink -/

/-- The answer the sink gives to the next transfer: a queued one, else a free one (R203). Log entry 5. -/
def nextAnswer (s : State) : SinkAnswer :=
  match s.sinkAnswers with
  | a :: _ => a
  | [] => Config.sinkAnswer s.sinkDraws

/-- `Transfer(payload)`: one call of the sink, its answer recorded in `HIST` (42_panel_controller.md R160). -/
def transfer (payload : List Byte) (s : State) : SinkAnswer × State :=
  (nextAnswer s,
    { s with
      hist := s.hist ++ [⟨payload, nextAnswer s⟩]
      sinkAnswers := s.sinkAnswers.tail
      sinkDraws := s.sinkDraws + 1 })

/-- What a failed transfer leaves of the Frame Buffer (R160, `POST_FAIL_BUFFER`). -/
def afterFailure (s : State) : State :=
  match s.config.postFailBuffer with
  | .drained => fbClear s
  | .retained => s

/-- `FlushStep()`: the whole buffer in one transfer, then emptied, or as `POST_FAIL_BUFFER` says (R160). -/
def flushStep (s : State) : SinkAnswer × State :=
  let called := transfer s.fb s
  match called.1 with
  | .ok => (.ok, fbClear called.2)
  | .fail => (.fail, afterFailure called.2)

/-- The end of every command that transfers: `if FlushStep() = ok: respond(0x00, []) else: raise
BusTransferError()` (R162, R165, R166). -/
def finishFlush (s : State) : State :=
  match (flushStep s).1 with
  | .ok => respond .ok [] (flushStep s).2
  | .fail => raise .busTransferError (flushStep s).2

/-! ## Building a payload -/

/-- `AppendColor(c)`: the three channel encodings appended in wire order (R161). -/
def appendColor (c : Color) (s : State) : State :=
  (wireBytes s.config.wireOrder c).foldl (fun s w => fbAppend (encChannel w) s) s

/-- `AppendColor` of each colour, in list order (R162, R166). -/
def appendColors (colors : List Color) (s : State) : State := colors.foldl (fun s c => appendColor c s) s

/-! ## The arrival of a frame -/

/-- The next frame of the host and the block that has taken it; none while the block is idle (10_state.md R31). -/
def takeFrame (s : State) : Option (Frame × State) :=
  match s.inbox with
  | [] => none
  | f :: rest => some (f, { s with inbox := rest })

/-- An illegal frame: `IllegalCommand`, nothing else changed (30_encoding.md R108, 60_exceptions.md R193). -/
def rejectFrame (s : State) : State := raise .illegalCommand s

/-- A frame put where the next step takes it. -/
def placeFrame (f : Frame) (s : State) : State := { s with inbox := f :: s.inbox }

end Sys2Proof.Machine
end

