-- ==== Sys2Proof/Machine/Panel.lean ====
section
/-! DEFINITION. The Panel Controller's commands SET_PIXELS, FLUSH and CLEAR_ALL. -/

namespace Sys2Proof.Machine

/-- SET_PIXELS (42_panel_controller.md R162): validate, check the capacity, build from an empty buffer, flush. -/
def execSetPixels (items : List Item) (s : State) : Host.Outcome State Fault Refusal :=
  match normalizeAll items with
  | none => .next (raise .invalidColorFormat s)
  | some colors =>
    if overflows s.config.fbCapacity colors.length then .next (raise .bufferOverflow s)
    else .next (finishFlush (appendColors colors (fbClear s)))

/-- FLUSH (42_panel_controller.md R165). -/
def execFlush (s : State) : Host.Outcome State Fault Refusal := .next (finishFlush s)

/-- CLEAR_ALL (42_panel_controller.md R166): `Color(0, 0, 0)` for every LED, from an empty buffer, then flush. -/
def execClearAll (s : State) : Host.Outcome State Fault Refusal :=
  .next (finishFlush (appendColors (List.replicate s.config.numLeds black) (fbClear s)))

end Sys2Proof.Machine
end

