-- ==== Sys2Proof/Machine/Query.lean ====
section
/-! DEFINITION. The query commands ENCODE_CHANNEL, TO_WIRE_ORDER and PARSE_HEX: they write no state and only
respond. -/

namespace Sys2Proof.Machine

/-- ENCODE_CHANNEL (40_symbol_encoder.md R120). -/
def execEncodeChannel (b : Byte) (s : State) : Host.Outcome State Fault Refusal :=
  .next (respond .ok (encChannel b) s)

/-- TO_WIRE_ORDER (41_reorder_and_color_input.md R140). -/
def execToWireOrder (c : Color) (s : State) : Host.Outcome State Fault Refusal :=
  .next (respond .ok (wireBytes s.config.wireOrder c) s)

/-- PARSE_HEX (41_reorder_and_color_input.md R142). -/
def execParseHex (chars : List Byte) (s : State) : Host.Outcome State Fault Refusal :=
  match parseColor chars with
  | some c => .next (respond .ok [c.r, c.g, c.b] s)
  | none => .next (raise .invalidColorFormat s)

end Sys2Proof.Machine
end

