-- ==== Sys2Proof/Machine/Dispatch.lean ====
section
/-! DEFINITION. The dispatch: one arm per command, each one call of its meaning. -/

namespace Sys2Proof.Machine

def exec (i : Instr) (s : State) : Host.Outcome State Fault Refusal :=
  match i with
  | .encodeChannel b => Sys2Proof.Machine.execEncodeChannel b s
  | .toWireOrder c => Sys2Proof.Machine.execToWireOrder c s
  | .parseHex chars => Sys2Proof.Machine.execParseHex chars s
  | .setPixels items => Sys2Proof.Machine.execSetPixels items s
  | .flush => Sys2Proof.Machine.execFlush s
  | .clearAll => Sys2Proof.Machine.execClearAll s

end Sys2Proof.Machine
end

