-- ==== Sys2Proof/Machine/Step.lean ====
section
/-! DEFINITION. One step of the block: the next command frame of the host, decoded and run to completion
(10_state.md R31, 20_memory.md R68; 92_eei_decisions.md D1). -/

namespace Sys2Proof.Machine

/-- One command: taken from the inbox, decoded, executed; an illegal frame is answered `IllegalCommand`; with no
frame waiting the block is idle and stays as it is (70_reset_and_hazards.md R221). -/
def step (s : State) : Host.Outcome State Fault Refusal :=
  match takeFrame s with
  | none => .next s
  | some (f, s') =>
    match decode f with
    | .ok i => exec i s'
    | .error _ => .next (rejectFrame s')

/-- The host's word delivered as the next frame. -/
def State.withFetchWord (s : State) (nbits w : Nat) : State := placeFrame (tableFrame nbits w) s

end Sys2Proof.Machine
end

