-- ==== Sys2Proof/Machine/Construct.lean ====
section
/-! DEFINITION. Construction, which is the block's reset (70_reset_and_hazards.md R220 to R222), and the 6-bit field
`WIRE_ORDER` it takes (30_encoding.md R92). -/

namespace Sys2Proof.Machine

/-- The 2-bit code of a channel (R92). -/
def channelCode : Channel → BitVec 2
  | .red => 0
  | .green => 1
  | .blue => 2

/-- The 6-bit field: SLOT0 in bits 1:0, SLOT1 in bits 3:2, SLOT2 in bits 5:4 (10_state.md R34). -/
def wireOrderCode (o : WireOrder) : BitVec 6 :=
  channelCode (slots o).2.2 ++ channelCode (slots o).2.1 ++ channelCode (slots o).1

/-- The wire order a 6-bit field holds, none where it is no permutation (R92). -/
def wireOrderOfCode (code : BitVec 6) : Option WireOrder :=
  [WireOrder.rgb, .rbg, .grb, .gbr, .brg, .bgr].find? fun o => wireOrderCode o == code

/-- Why a construction is refused (R222). -/
inductive ConstructError where
  | illegalWireOrder
  | capacityBelowPanel
  deriving DecidableEq, Repr

/-- Construction of a block, or its refusal (R222): the reset state is R221's. -/
def construct (numLeds : Nat) (wireOrder : BitVec 6) (fbCapacity : Option Nat) (postFailBuffer : PostFailBuffer) :
    Except ConstructError State :=
  match wireOrderOfCode wireOrder with
  | none => .error .illegalWireOrder
  | some o =>
    if overflows fbCapacity numLeds then .error .capacityBelowPanel
    else .ok (State.ofConfig ⟨numLeds, o, fbCapacity, postFailBuffer⟩)

end Sys2Proof.Machine
end

