-- ==== Sys2Proof/Machine/Wire.lean ====
section
/-! DEFINITION. The serial line as far as the spec gives it: the bits the sink shifts out for a payload under a
`SINK_BIT_ORDER` (20_memory.md R65, 90_conflicts.md C1), and the ratios of R229. No command reads any of it. -/

namespace Sys2Proof.Machine

/-- The eight bits of a byte in the order the sink shifts them (R65). -/
def serialByte : SinkBitOrder → Byte → List Bool
  | .lsbFirst, v => (List.range 8).map fun i => v.getLsbD i
  | .msbFirst, v => (List.range 8).map fun i => v.getLsbD (7 - i)

/-- The bits of a payload on the serial line, byte 0 first (20_memory.md R63). -/
def serialBits (order : SinkBitOrder) (payload : List Byte) : List Bool := payload.flatMap (serialByte order)

/-- The bits on the line of the hardware, whose bit order is open. -/
def lineBits (payload : List Byte) : List Bool := serialBits Config.sinkBitOrder payload

/-- The sink's bit rate: three times the native bit rate (60_exceptions.md R201). -/
def sinkBitRate : Nat := 3 * Config.nativeBitRate

/-- How many native bit periods a run of sink bits takes: one for every three (R229). -/
def nativePeriods (bits : List Bool) : Nat := bits.length / 3

end Sys2Proof.Machine
end

