-- ==== Sys2Proof/Safety.lean ====
section
/-! DEFINITION. The terms the claims use: the invariant of a block between two commands, the shapes of a response,
and what a well-formed colour input is, said without the model's parser. -/

namespace Sys2Proof.Machine

/-- Bytes that are whole colours' worth of channel encodings (20_memory.md R66, 30_encoding.md R90, R91). -/
def IsPixelData (bytes : List Byte) : Prop :=
  ∃ channels : List Byte, channels.length % 3 = 0 ∧ bytes = channels.flatMap encChannel

/-- The bytes are within `FB_CAPACITY` (10_state.md R36). -/
def FitsCapacity (c : BlockConfig) (bytes : List Byte) : Prop :=
  ∀ n, c.fbCapacity = some n → bytes.length ≤ n

/-- What holds of every block between two commands. -/
structure State.Inv (s : State) : Prop where
  /-- The configuration is one that construction admits (70_reset_and_hazards.md R222). -/
  constructible : ∀ n, s.config.fbCapacity = some n → 9 * s.config.numLeds ≤ n
  /-- The buffer and every payload ever sent are channel encodings of whole colours. -/
  pixels : IsPixelData s.fb ∧ ∀ e ∈ s.hist, IsPixelData e.payload
  /-- The buffer and every payload ever sent fit `FB_CAPACITY` (R36). -/
  fits : FitsCapacity s.config s.fb ∧ ∀ e ∈ s.hist, FitsCapacity s.config e.payload
  /-- The buffer is empty at rest, but that under `RETAINED` it may hold the payload of the last transfer, which
  failed (10_state.md R37, R40). -/
  atRest : s.fb = [] ∨
    (s.config.postFailBuffer = .retained ∧ s.hist.getLast? = some ⟨s.fb, .fail⟩)

/-- What can stand where a SET_PIXELS item should and is none: nothing, a triple cut short, a hex string without its
length or cut short, an unknown tag (30_encoding.md R105, R108 cases 3 and 4). -/
inductive IllegalItem : Frame → Prop where
  | missing : IllegalItem []
  | tripleCut {part : Frame} (h : part.length < 3) : IllegalItem (0x00 :: part)
  | hexLengthMissing : IllegalItem [0x01]
  | hexCut {l : Byte} {part : Frame} (h : part.length < l.toNat) : IllegalItem (0x01 :: l :: part)
  | unknownTag {tag : Byte} {part : Frame} (h0 : tag ≠ 0x00) (h1 : tag ≠ 0x01) : IllegalItem (tag :: part)

/-- The illegal encodings, as 30_encoding.md R108 lists them over the layouts of R102 to R107. -/
inductive IllegalLayout : Frame → Prop where
  | empty : IllegalLayout []
  | unknownOpcode {op : Byte} {tail : Frame} (h : op ∉ [0x01, 0x02, 0x03, 0x10, 0x11, 0x12]) :
      IllegalLayout (op :: tail)
  | encodeChannelLength {tail : Frame} (h : tail.length ≠ 1) : IllegalLayout (0x01 :: tail)
  | toWireOrderLength {tail : Frame} (h : tail.length ≠ 3) : IllegalLayout (0x02 :: tail)
  | parseHexLengthMissing : IllegalLayout [0x03]
  | parseHexLength {l : Byte} {chars : Frame} (h : chars.length ≠ l.toNat) : IllegalLayout (0x03 :: l :: chars)
  | countCut {tail : Frame} (h : tail.length < 4) : IllegalLayout (0x10 :: tail)
  | itemsEnd {n : Nat} {items : List Item} {tail : Frame} (hn : n ≤ 4294967295)
      (hw : items.all Item.wellFormed = true) (hl : items.length < n) (ht : IllegalItem tail) :
      IllegalLayout (0x10 :: (le32Bytes n ++ items.flatMap Item.encode ++ tail))
  | bytesAfterItems {items : List Item} {tail : Frame} (hn : items.length ≤ 4294967295)
      (hw : items.all Item.wellFormed = true) (ht : tail ≠ []) :
      IllegalLayout (0x10 :: (le32Bytes items.length ++ items.flatMap Item.encode ++ tail))
  | flushLength {tail : Frame} (h : tail.length ≠ 0) : IllegalLayout (0x11 :: tail)
  | clearAllLength {tail : Frame} (h : tail.length ≠ 0) : IllegalLayout (0x12 :: tail)

/-- How many result bytes follow the status of a success (30_encoding.md R101). -/
def resultLength : Instr → Nat
  | .encodeChannel _ => 3
  | .toWireOrder _ => 3
  | .parseHex _ => 3
  | .setPixels _ => 0
  | .flush => 0
  | .clearAll => 0

/-- The errors a well-framed command can raise (60_exceptions.md R190, the column "raised by"). -/
def errorsOf : Instr → List Status
  | .encodeChannel _ => []
  | .toWireOrder _ => []
  | .parseHex _ => [.invalidColorFormat]
  | .setPixels _ => [.invalidColorFormat, .bufferOverflow, .busTransferError]
  | .flush => [.busTransferError]
  | .clearAll => [.busTransferError]

/-- The response frames a command may give (30_encoding.md R101): success with its result bytes, or one of its
errors with nothing after the code. -/
def ResponseAllowed (i : Instr) (r : Frame) : Prop :=
  (∃ bytes, r = 0x00 :: bytes ∧ bytes.length = resultLength i) ∨ ∃ e ∈ errorsOf i, r = [e.code]

/-- `c` is a hex digit of value `v` (30_encoding.md R94). -/
def HexDigit (c : Byte) (v : Nat) : Prop :=
  (v < 10 ∧ c.toNat = 0x30 + v) ∨ (10 ≤ v ∧ v < 16 ∧ (c.toNat = 0x37 + v ∨ c.toNat = 0x57 + v))

/-- A malformed hex string: length not 6, or a character that is no hex digit (30_encoding.md R93). -/
def MalformedHex (chars : List Byte) : Prop :=
  chars.length ≠ 6 ∨ ∃ c ∈ chars, ∀ v, ¬ HexDigit c v

/-- The channel byte of a pair of digits, the first the high nibble (R94). -/
def PairValue (first second : Byte) (v : Byte) : Prop :=
  ∃ h l, HexDigit first h ∧ HexDigit second l ∧ v = BitVec.ofNat 8 (16 * h + l)

/-- The six characters name the colour, in logical order (R93). -/
def HexColor (chars : List Byte) (c : Color) : Prop :=
  ∃ c0 c1 c2 c3 c4 c5, chars = [c0, c1, c2, c3, c4, c5] ∧ PairValue c0 c1 c.r ∧ PairValue c2 c3 c.g ∧
    PairValue c4 c5 c.b

/-- The item stands for the colour (41_reorder_and_color_input.md R144, R145). -/
def ItemColor : Item → Color → Prop
  | .triple c, c' => c' = c
  | .hex chars, c' => HexColor chars c'

/-- `N` colours do not exceed `FB_CAPACITY` (42_panel_controller.md R162, phase 2). -/
def CountFits (c : BlockConfig) (count : Nat) : Prop := ∀ n, c.fbCapacity = some n → 9 * count ≤ n

/-- What the flush step leaves in the Frame Buffer after a transfer of `payload` (R160). -/
def leftAfter (c : BlockConfig) (payload : List Byte) : SinkAnswer → List Byte
  | .ok => []
  | .fail => match c.postFailBuffer with
    | .drained => []
    | .retained => payload

/-- The response of a command that transferred (R162, R165, R166). -/
def transferResponse : SinkAnswer → Frame
  | .ok => [0x00]
  | .fail => [0x02]

/-- The block after a command that transferred `payload`: one event, the buffer as R160 leaves it, one response,
one sink answer used; nothing else. -/
def State.afterTransfer (s : State) (payload : List Byte) : State :=
  { s with
    fb := leftAfter s.config payload (nextAnswer s)
    hist := s.hist ++ [⟨payload, nextAnswer s⟩]
    responses := s.responses ++ [transferResponse (nextAnswer s)]
    sinkAnswers := s.sinkAnswers.tail
    sinkDraws := s.sinkDraws + 1 }

/-- The block after a command that only responded. -/
def State.afterResponse (s : State) (r : Frame) : State := { s with responses := s.responses ++ [r] }

end Sys2Proof.Machine
end

