-- ==== Sys2Proof/Certificates/Slice0/Obligations.lean ====
section
/-! DEFINITION. The statements about the block, from the numbered rules of spec/. Each holds for every configuration
a block can be built with, since the configuration is part of the state. -/

open Sys2Proof Sys2Proof.Machine

/-! ## Frames and the step -/

/-- 10_state.md section 1 and 20_memory.md section 5: the step takes the host's next frame out of the inbox and runs
the command it holds, with nothing else around `exec`. -/
def Obligations.StepRunsDecodedCommand : Prop :=
  ∀ (s : State) (f : Frame) (rest : List Frame) (i : Instr),
    s.inbox = f :: rest → decode f = .ok i → i.wellFormed = true →
    step s = exec i { s with inbox := rest }

/-- 70_reset_and_hazards.md section 1, "idle and waits for its first command frame": with no frame the block stays
as it is. The model's choice of a step for this is log entry 3. -/
def Obligations.EmptyInboxStaysIdle : Prop := ∀ s : State, s.inbox = [] → step s = .next s

/-- Frames written out byte by byte in 95_test_vectors.md, and the commands they stand for. -/
def Obligations.WrittenFramesDecode : Prop :=
  decode [0x01, 0x33] = .ok (.encodeChannel 0x33) ∧
  decode [0x02, 0x10, 0x20, 0x30] = .ok (.toWireOrder ⟨0x10, 0x20, 0x30⟩) ∧
  decode [0x03, 0x06, 0x61, 0x30, 0x42, 0x31, 0x63, 0x32] =
    .ok (.parseHex [0x61, 0x30, 0x42, 0x31, 0x63, 0x32]) ∧
  decode [0x10, 0x02, 0x00, 0x00, 0x00, 0x00, 0x33, 0x00, 0x00, 0x01, 0x06, 0x30, 0x30, 0x33, 0x33, 0x30, 0x30] =
    .ok (.setPixels [.triple ⟨0x33, 0, 0⟩, .hex [0x30, 0x30, 0x33, 0x33, 0x30, 0x30]]) ∧
  decode [0x11] = .ok .flush ∧
  decode [0x12] = .ok .clearAll

/-- 30_encoding.md part B (the spec's own choice, D2 to D4): no bit of a well-formed command is lost on its way
through a frame. -/
def Obligations.DecodeOfEncode : Prop := ∀ i : Instr, i.wellFormed = true → decode (encode i) = .ok i

/-- 30_encoding.md part B: a frame that decodes is the one frame of a well-formed command, so no two frames stand
for one command. -/
def Obligations.DecodedFrameIsEncoding : Prop :=
  ∀ (f : Frame) (i : Instr), decode f = .ok i → i.wellFormed = true ∧ encode i = f

/-- 30_encoding.md section B.1, "A decoder tells a frame's length from its opcode alone …, from `L` for 0x03, and from
`N` and each item's tag and `L` for 0x10": every legal frame has the length its own bytes tell. -/
def Obligations.LegalFrameLength : Prop := ∀ (f : Frame) (i : Instr), decode f = .ok i → f.length = frameLength f

/-- The illegal encodings of 30_encoding.md section B.1, case by case: each is answered `IllegalCommand` (0x03) and
changes nothing but the inbox it is taken from (the spec's own choice, D4). -/
def Obligations.IllegalFramesAnswered : Prop :=
  ∀ (s : State) (f : Frame) (rest : List Frame), s.inbox = f :: rest → IllegalLayout f →
    step s = .next { s with inbox := rest, responses := s.responses ++ [[0x03]] }

/-- 30_encoding.md section B.1, "every byte sequence is either exactly one well-framed command or illegal": the listed
illegal encodings and the encodings of well-formed commands share no frame and leave none out. -/
def Obligations.FramesLegalOrListed : Prop :=
  ∀ f : Frame,
    (IllegalLayout f ∧ ¬ ∃ i : Instr, i.wellFormed = true ∧ encode i = f) ∨
    (¬ IllegalLayout f ∧ ∃! i : Instr, i.wellFormed = true ∧ encode i = f)

/-- 30_encoding.md section B.1 and 60_exceptions.md section 1: every frame, legal or not, is answered by exactly one
response frame, of a shape its command allows; the block never stops. -/
def Obligations.OneResponsePerFrame : Prop :=
  ∀ (s : State) (f : Frame) (rest : List Frame), s.inbox = f :: rest →
    ∃ t r, step s = .next t ∧ t.inbox = rest ∧ t.responses = s.responses ++ [r] ∧
      (∀ i, decode f = .ok i → ResponseAllowed i r) ∧ (∀ e, decode f = .error e → r = [0x03])

/-! ## ENCODE_CHANNEL -/

/-- R80, R81, R82: the symbols `(0, bit, 1)` of bits 0 to 7 in order make `sym[0..23]`, and byte `j` of the response
is the sum of `sym[8j+i] * 2^i`. -/
def Obligations.EncodeChannelSymbols : Prop :=
  ∀ (b : Byte) (s : State), ∃ (sym : Nat → Bool) (b0 b1 b2 : Byte),
    (∀ k < 8, sym (3 * k) = false ∧ sym (3 * k + 1) = b.getLsbD k ∧ sym (3 * k + 2) = true) ∧
    b0.toNat = ∑ i ∈ Finset.range 8, (sym i).toNat * 2 ^ i ∧
    b1.toNat = ∑ i ∈ Finset.range 8, (sym (8 + i)).toNat * 2 ^ i ∧
    b2.toNat = ∑ i ∈ Finset.range 8, (sym (16 + i)).toNat * 2 ^ i ∧
    exec (.encodeChannel b) s = .next { s with responses := s.responses ++ [[0x00, b0, b1, b2]] }

/-- The closed form and the per-byte form that 30_encoding.md section A.3 derives from its bit map (the spec's own
inference). -/
def Obligations.EncodeChannelClosedForm : Prop :=
  ∀ (b : Byte) (s : State), ∃ b0 b1 b2 : Byte,
    exec (.encodeChannel b) s = .next { s with responses := s.responses ++ [[0x00, b0, b1, b2]] } ∧
    b2 ++ b1 ++ b0 = (List.range 8).foldl
      (fun (w : BitVec 24) k => w ||| ((BitVec.ofBool (b.getLsbD k)).setWidth 24 <<< (3 * k + 1))) 0x924924#24 ∧
    b0 = 0x24 ||| ((BitVec.ofBool (b.getLsbD 0)).setWidth 8 <<< 1) ||| ((BitVec.ofBool (b.getLsbD 1)).setWidth 8 <<< 4)
      ||| ((BitVec.ofBool (b.getLsbD 2)).setWidth 8 <<< 7) ∧
    b1 = 0x49 ||| ((BitVec.ofBool (b.getLsbD 3)).setWidth 8 <<< 2)
      ||| ((BitVec.ofBool (b.getLsbD 4)).setWidth 8 <<< 5) ∧
    b2 = 0x92 ||| ((BitVec.ofBool (b.getLsbD 5)).setWidth 8 <<< 0) ||| ((BitVec.ofBool (b.getLsbD 6)).setWidth 8 <<< 3)
      ||| ((BitVec.ofBool (b.getLsbD 7)).setWidth 8 <<< 6)

/-- The inverse, the injectivity and the range that 40_symbol_encoder.md derives (the spec's own inference): the
encoder's results are exactly the 24-bit words that pass the two masks, and bit `k` is bit `3k+1` of the word. -/
def Obligations.EncoderRangeAndInverse : Prop :=
  (∀ b b' : Byte, encChannel b = encChannel b' → b = b') ∧
  (∀ b : Byte, ∃ b0 b1 b2 : Byte, encChannel b = [b0, b1, b2] ∧
    ∀ k < 8, (b2 ++ b1 ++ b0).getLsbD (3 * k + 1) = b.getLsbD k) ∧
  (∀ b0 b1 b2 : Byte, (∃ b, encChannel b = [b0, b1, b2]) ↔
    ((b2 ++ b1 ++ b0) &&& 0x924924#24 = 0x924924#24 ∧ (b2 ++ b1 ++ b0) &&& 0x249249#24 = 0#24))

/-- R123: the three authoritative vectors, in every state. -/
def Obligations.EncodeChannelVectors : Prop :=
  ∀ s : State,
    exec (.encodeChannel 0) s = .next { s with responses := s.responses ++ [[0x00, 36, 73, 146]] } ∧
    exec (.encodeChannel 1) s = .next { s with responses := s.responses ++ [[0x00, 38, 73, 146]] } ∧
    exec (.encodeChannel 255) s = .next { s with responses := s.responses ++ [[0x00, 182, 109, 219]] }

/-- R121: one byte in, exactly three bytes out, for every byte. -/
def Obligations.EncodeChannelThreeBytes : Prop :=
  ∀ (b : Byte) (s : State), ∃ out : List Byte,
    exec (.encodeChannel b) s = .next { s with responses := s.responses ++ [0x00 :: out] } ∧ out.length = 3

/-- R122: the result depends on the byte alone, and the same function builds the payloads of SET_PIXELS and
CLEAR_ALL. -/
def Obligations.EncoderIsPureAndShared : Prop :=
  ∃ enc : Byte → List Byte, ∀ s : State,
    (∀ b, exec (.encodeChannel b) s = .next { s with responses := s.responses ++ [0x00 :: enc b] }) ∧
    (∀ c : Color, CountFits s.config 1 → ∃ w0 w1 w2 t,
      exec (.toWireOrder c) s = .next { s with responses := s.responses ++ [[0x00, w0, w1, w2]] } ∧
      exec (.setPixels [.triple c]) s = .next t ∧
      t.hist = s.hist ++ [⟨enc w0 ++ enc w1 ++ enc w2, nextAnswer s⟩]) ∧
    (∃ t, exec .clearAll s = .next t ∧
      t.hist = s.hist ++ [⟨(List.replicate (3 * s.config.numLeds) (enc 0)).flatten, nextAnswer s⟩])

/-- 40_symbol_encoder.md, the duty-cycle property (the spec's own inference): each symbol has one high slot of three
for a source bit 0 and two for a source bit 1. -/
def Obligations.SymbolDutyCycle : Prop :=
  ∀ (b : Byte) (s : State), ∃ b0 b1 b2 : Byte,
    exec (.encodeChannel b) s = .next { s with responses := s.responses ++ [[0x00, b0, b1, b2]] } ∧
    ∀ k < 8, ((List.range 3).countP fun r => (b2 ++ b1 ++ b0).getLsbD (3 * k + r)) = if b.getLsbD k then 2 else 1

/-! ## TO_WIRE_ORDER -/

/-- R140: the frame's three bytes are the colour; wire byte `j` is picked by slot `j` of the 6-bit `WIRE_ORDER`; for GRB the answer is (g, r, b). -/
def Obligations.ToWireOrderPicksSlots : Prop :=
  ∀ (c : Color) (s : State),
    let code := wireOrderCode s.config.wireOrder
    let pickCode := fun slot : BitVec 2 => if slot = 0 then c.r else if slot = 1 then c.g else c.b
    decode [0x02, c.r, c.g, c.b] = .ok (.toWireOrder c) ∧
    exec (.toWireOrder c) s = .next { s with responses := s.responses ++
      [[0x00, pickCode (code.extractLsb' 0 2), pickCode (code.extractLsb' 2 2), pickCode (code.extractLsb' 4 2)]] } ∧
    (s.config.wireOrder = .grb →
      exec (.toWireOrder c) s = .next { s with responses := s.responses ++ [[0x00, c.g, c.r, c.b]] })

/-- 41_reorder_and_color_input.md (the spec's own inference): under every wire order the answer is a permutation of
the colour's channels. -/
def Obligations.ToWireOrderPermutes : Prop :=
  ∀ (c : Color) (s : State), ∃ w0 w1 w2,
    exec (.toWireOrder c) s = .next { s with responses := s.responses ++ [[0x00, w0, w1, w2]] } ∧
    [w0, w1, w2].Perm [c.r, c.g, c.b]

/-- 30_encoding.md section A.5 (the spec's own encoding, D13): the six codes of the table, and no other 6-bit value
names a wire order. -/
def Obligations.WireOrderField : Prop :=
  [WireOrder.rgb, .rbg, .grb, .gbr, .brg, .bgr].map wireOrderCode = [0x24, 0x18, 0x21, 0x09, 0x12, 0x06] ∧
  ∀ (code : BitVec 6) (o : WireOrder), wireOrderOfCode code = some o ↔ wireOrderCode o = code

/-! ## PARSE_HEX and the colour input -/

/-- 41_reorder_and_color_input.md PARSE_HEX: six hex digits give the three channels, first digit of a pair high
(general knowledge in the spec, log entry 7), in either case; nothing else changes. -/
def Obligations.ParseHexResult : Prop :=
  ∀ (s : State) (chars : List Byte) (c : Color), HexColor chars c →
    exec (.parseHex chars) s = .next { s with responses := s.responses ++ [[0x00, c.r, c.g, c.b]] }

/-- R191: a malformed hex string is answered `InvalidColorFormat` by PARSE_HEX and by SET_PIXELS, whatever the
capacity, before any mutation; without one neither raises it, so a typed triple never does. -/
def Obligations.InvalidColorFormatRaised : Prop :=
  (∀ (s : State) (chars : List Byte), MalformedHex chars →
    exec (.parseHex chars) s = .next { s with responses := s.responses ++ [[0x01]] }) ∧
  (∀ (s : State) (items : List Item), (∃ chars, Item.hex chars ∈ items ∧ MalformedHex chars) →
    exec (.setPixels items) s = .next { s with responses := s.responses ++ [[0x01]] }) ∧
  (∀ (s t : State) (i : Instr), exec i s = .next t → t.responses = s.responses ++ [[0x01]] →
    (∃ chars, i = .parseHex chars ∧ MalformedHex chars) ∨
    (∃ items chars, i = .setPixels items ∧ Item.hex chars ∈ items ∧ MalformedHex chars))

/-- 41_reorder_and_color_input.md "Colour normalisation": two batches that name the same colours in the same order
run alike, whatever form each item has. -/
def Obligations.ItemFormsAgree : Prop :=
  ∀ (s : State) (items items' : List Item) (cs : List Color),
    List.Forall₂ ItemColor items cs → List.Forall₂ ItemColor items' cs →
    exec (.setPixels items) s = exec (.setPixels items') s

/-! ## SET_PIXELS -/

/-- 42_panel_controller.md SET_PIXELS, its whole effect: well-formed colours that fit are sent as one payload built
from an empty buffer, and the sink's answer decides the response and what the buffer keeps. -/
def Obligations.SetPixelsSends : Prop :=
  ∀ (s : State) (items : List Item) (cs : List Color),
    List.Forall₂ ItemColor items cs → CountFits s.config cs.length →
    exec (.setPixels items) s = .next (s.afterTransfer (cs.flatMap (pixelGroup s.config.wireOrder)))

/-- R90, R91: the payload of SET_PIXELS is, colour by colour, the three encodings of the channels in wire order, 9
bytes each (GRB: g, r, b), and that of CLEAR_ALL is the encoding of 0 three times per LED; nothing is added. -/
def Obligations.PayloadsAreConcatenatedGroups : Prop :=
  ∀ s : State,
    (∀ cs : List Color, CountFits s.config cs.length → ∃ t groups,
      exec (.setPixels (cs.map .triple)) s = .next t ∧
      t.hist = s.hist ++ [⟨groups.flatten, nextAnswer s⟩] ∧ groups.flatten.length = 9 * cs.length ∧
      List.Forall₂ (fun c group =>
        (∃ w0 w1 w2, exec (.toWireOrder c) s = .next { s with responses := s.responses ++ [[0x00, w0, w1, w2]] } ∧
          group = encChannel w0 ++ encChannel w1 ++ encChannel w2) ∧
        (s.config.wireOrder = .grb → group = encChannel c.g ++ encChannel c.r ++ encChannel c.b)) cs groups) ∧
    (∃ t payload, exec .clearAll s = .next t ∧ t.hist = s.hist ++ [⟨payload, nextAnswer s⟩] ∧
      payload = (List.replicate (3 * s.config.numLeds) (encChannel 0)).flatten ∧
      payload.length = 9 * s.config.numLeds)

/-- 42_panel_controller.md SET_PIXELS phase 2 (the spec's own choice, D5, which warns against leaning on this branch
without evidence from a device): a batch over the capacity is refused with `BufferOverflow`, nothing else happens. -/
def Obligations.SetPixelsOverflow : Prop :=
  ∀ (s : State) (items : List Item) (cs : List Color) (n : Nat),
    List.Forall₂ ItemColor items cs → s.config.fbCapacity = some n → n < 9 * cs.length →
    exec (.setPixels items) s = .next { s with responses := s.responses ++ [[0x04]] }

/-- 42_panel_controller.md, corner case 3 of SET_PIXELS: bytes an earlier failure left never reach a later batch. A
batch that is sent, or refused, does the same whatever the buffer held. -/
def Obligations.StaleBytesDiscarded : Prop :=
  ∀ (s : State) (stale : List Byte) (items : List Item) (cs : List Color),
    List.Forall₂ ItemColor items cs → CountFits s.config cs.length →
    exec (.setPixels items) { s with fb := stale } = exec (.setPixels items) s

/-- R161: the append step adds the encodings of the three reordered channel bytes, 9 bytes, and cannot fail. -/
def Obligations.AppendStepAddsNineBytes : Prop :=
  ∀ (c : Color) (s : State), ∃ w0 w1 w2 added,
    exec (.toWireOrder c) s = .next { s with responses := s.responses ++ [[0x00, w0, w1, w2]] } ∧
    added = encChannel w0 ++ encChannel w1 ++ encChannel w2 ∧ added.length = 9 ∧
    appendColor c s = { s with fb := s.fb ++ added }

/-! ## FLUSH and CLEAR_ALL -/

/-- 42_panel_controller.md FLUSH: what it leaves for each answer of the sink and each `POST_FAIL_BUFFER`. -/
def Obligations.FlushResult : Prop :=
  ∀ s : State,
    (nextAnswer s = .ok → exec .flush s = .next { s with
      fb := [], hist := s.hist ++ [⟨s.fb, .ok⟩], responses := s.responses ++ [[0x00]],
      sinkAnswers := s.sinkAnswers.tail, sinkDraws := s.sinkDraws + 1 }) ∧
    (nextAnswer s = .fail → s.config.postFailBuffer = .drained → exec .flush s = .next { s with
      fb := [], hist := s.hist ++ [⟨s.fb, .fail⟩], responses := s.responses ++ [[0x02]],
      sinkAnswers := s.sinkAnswers.tail, sinkDraws := s.sinkDraws + 1 }) ∧
    (nextAnswer s = .fail → s.config.postFailBuffer = .retained → exec .flush s = .next { s with
      hist := s.hist ++ [⟨s.fb, .fail⟩], responses := s.responses ++ [[0x02]],
      sinkAnswers := s.sinkAnswers.tail, sinkDraws := s.sinkDraws + 1 })

/-- 20_memory.md section 1: the payload of a FLUSH is every byte of the buffer in index order, read by one transfer. -/
def Obligations.FlushReadsWholeBuffer : Prop :=
  ∀ s : State, ∃ t payload, exec .flush s = .next t ∧ t.hist = s.hist ++ [⟨payload, nextAnswer s⟩] ∧
    (List.range s.fb.length).map (fun i => memRead i s) = payload.map .ok

/-- R166: CLEAR_ALL, opcode 0x12, sends `[36, 73, 146]` three times per LED in one transfer and answers 0x00, or 0x02 on a failed
transfer; no other error occurs. -/
def Obligations.ClearAllSendsDark : Prop :=
  decode [0x12] = .ok .clearAll ∧ ∀ s : State, ∃ t payload, exec .clearAll s = .next t ∧
    payload = (List.replicate (3 * s.config.numLeds) ([36, 73, 146] : List Byte)).flatten ∧
    payload.length = 9 * s.config.numLeds ∧
    t = { s with
      fb := if nextAnswer s = .fail ∧ s.config.postFailBuffer = .retained then payload else []
      hist := s.hist ++ [⟨payload, nextAnswer s⟩]
      responses := s.responses ++ [if nextAnswer s = .ok then [0x00] else [0x02]]
      sinkAnswers := s.sinkAnswers.tail
      sinkDraws := s.sinkDraws + 1 }

/-- 42_panel_controller.md, corner cases of CLEAR_ALL (the spec's own inference): neither the wire order nor bytes
left by a failure change what CLEAR_ALL does. -/
def Obligations.ClearAllIgnoresOrderAndStale : Prop :=
  ∀ (s t : State) (o : WireOrder) (stale : List Byte), exec .clearAll s = .next t →
    exec .clearAll { s with fb := stale, config := { s.config with wireOrder := o } } =
      .next { t with config := { t.config with wireOrder := o } }

/-- 42_panel_controller.md "CLEAR_ALL idempotence": twice in a row the same payload, a function of NUM_LEDS alone. -/
def Obligations.ClearAllRepeats : Prop :=
  ∃ payloadOf : Nat → List Byte, ∀ s : State, ∃ t u,
    exec .clearAll s = .next t ∧ exec .clearAll t = .next u ∧
    t.hist = s.hist ++ [⟨payloadOf s.config.numLeds, nextAnswer s⟩] ∧
    u.hist = t.hist ++ [⟨payloadOf s.config.numLeds, nextAnswer t⟩]

/-! ## The sink and the errors -/

/-- R192: the three commands that flush answer `BusTransferError` when the sink fails, after exactly one transfer; no
other command answers it, and none of the three does without a failed transfer; and whatever a command is and whatever
the sink answers, it never makes a second transfer. -/
def Obligations.BusTransferErrorRaised : Prop :=
  (∀ (s : State) (i : Instr), nextAnswer s = .fail →
    (i = .flush ∨ i = .clearAll ∨
      ∃ items cs, i = .setPixels items ∧ List.Forall₂ ItemColor items cs ∧ CountFits s.config cs.length) →
    ∃ t payload, exec i s = .next t ∧ t.responses = s.responses ++ [[0x02]] ∧
      t.hist = s.hist ++ [⟨payload, .fail⟩] ∧ t.sinkDraws = s.sinkDraws + 1) ∧
  (∀ (s t : State) (i : Instr), exec i s = .next t → t.responses = s.responses ++ [[0x02]] →
    (i = .flush ∨ i = .clearAll ∨ ∃ items, i = .setPixels items) ∧
    nextAnswer s = .fail ∧ ∃ payload, t.hist = s.hist ++ [⟨payload, .fail⟩]) ∧
  (∀ (s t : State) (i : Instr), exec i s = .next t →
    ∃ events : List TransferEvent, events.length ≤ 1 ∧ t.hist = s.hist ++ events ∧
      t.sinkDraws = s.sinkDraws + events.length)

/-- 70_reset_and_hazards.md section 3, the retry hazard (the spec's own inference): after a SET_PIXELS or CLEAR_ALL
whose transfer failed, FLUSH sends the failed payload again under `RETAINED` and nothing under `DRAINED`. -/
def Obligations.FlushAfterFailure : Prop :=
  ∀ (s t : State) (i : Instr) (payload : List Byte), i ≠ .flush →
    exec i s = .next t → t.hist = s.hist ++ [⟨payload, .fail⟩] →
    ∃ u, exec .flush t = .next u ∧
      (s.config.postFailBuffer = .retained → u.hist = t.hist ++ [⟨payload, nextAnswer t⟩]) ∧
      (s.config.postFailBuffer = .drained → u.hist = t.hist ++ [⟨[], nextAnswer t⟩])

/-- 42_panel_controller.md "Laws": a command that transferred with success leaves the buffer empty, and under
`DRAINED` every step, legal frame or not, leaves an empty buffer empty. -/
def Obligations.BufferEmptyAtRest : Prop :=
  (∀ (s t : State) (i : Instr), exec i s = .next t → t.responses = s.responses ++ [[0x00]] → t.fb = []) ∧
  (∀ s t : State, s.config.postFailBuffer = .drained → s.fb = [] → step s = .next t → t.fb = [])

/-! ## Frames: what commands leave alone -/

/-- 10_state.md section 3 and 20_memory.md section 3: ENCODE_CHANNEL, TO_WIRE_ORDER and PARSE_HEX change nothing but
the responses; every byte of the Frame Buffer reads as before. -/
def Obligations.QueriesChangeNothing : Prop :=
  ∀ (s t : State) (i : Instr),
    ((∃ b, i = .encodeChannel b) ∨ (∃ c, i = .toWireOrder c) ∨ (∃ chars, i = .parseHex chars)) →
    exec i s = .next t →
    (∃ r, t = { s with responses := s.responses ++ [r] }) ∧ ∀ index, memRead index t = memRead index s

/-- 42_panel_controller.md, "State written" of SET_PIXELS, FLUSH and CLEAR_ALL: configuration and inbox stay, the
responses grow by one; either nothing else changed, every byte reading as before, or one transfer was made and the
buffer is empty or holds its payload. -/
def Obligations.PanelCommandsFrame : Prop :=
  ∀ (s t : State) (i : Instr), ((∃ items, i = .setPixels items) ∨ i = .flush ∨ i = .clearAll) →
    exec i s = .next t →
    t.config = s.config ∧ t.inbox = s.inbox ∧ (∃ r, t.responses = s.responses ++ [r]) ∧
    ((t.hist = s.hist ∧ t.sinkAnswers = s.sinkAnswers ∧ t.sinkDraws = s.sinkDraws ∧
        ∀ index, memRead index t = memRead index s) ∨
     (∃ payload, t.hist = s.hist ++ [⟨payload, nextAnswer s⟩] ∧ t.sinkAnswers = s.sinkAnswers.tail ∧
        t.sinkDraws = s.sinkDraws + 1 ∧
        (t.fb = [] ∨ (t.fb = payload ∧ s.config.postFailBuffer = .retained ∧ nextAnswer s = .fail))))

/-- 10_state.md section 2: the configuration registers are read-only to every command. -/
def Obligations.ConfigurationImmutable : Prop := ∀ s t : State, step s = .next t → t.config = s.config

/-- R38: HIST is written by transfers alone, at most one event a step, in order; no command reads it; it is empty at
reset. -/
def Obligations.HistoryWrittenOnly : Prop :=
  (∀ (s t : State) (h : List TransferEvent), step s = .next t →
    ∃ events : List TransferEvent, events.length ≤ 1 ∧ t.hist = s.hist ++ events ∧
      t.sinkDraws = s.sinkDraws + events.length ∧ (∀ e ∈ events, e.answer = nextAnswer s) ∧
      step { s with hist := h } = .next { t with hist := h ++ events }) ∧
  State.reset.hist = []

/-- 10_state.md section 2: NUM_LEDS is read by CLEAR_ALL only. -/
def Obligations.NumLedsReadByClearAllOnly : Prop :=
  ∀ (s t : State) (i : Instr) (n : Nat), i ≠ .clearAll → exec i s = .next t →
    exec i { s with config := { s.config with numLeds := n } } =
      .next { t with config := { t.config with numLeds := n } }

/-- 00_scope.md section 5 and 20_memory.md section 1: the primitive `memWrite` is admitted only at `FB.len`, where it
appends; the byte written is read back there and every byte below reads as before. The spec says only where an access
is admitted: that `memWrite` at another index, and `memRead` at or past `FB.len`, fault is the model's choice (log
entry 6). No command calls `memWrite`; the commands append with `fbAppend`, byte by byte the same push. -/
def Obligations.WritesAreAppends : Prop :=
  ∀ (s : State) (v : Byte),
    (∃ t, memWrite s.fb.length v s = .ok t ∧ memRead s.fb.length t = .ok v ∧ t.fb.length = s.fb.length + 1 ∧
      (∀ index < s.fb.length, memRead index t = memRead index s) ∧ t = { s with fb := t.fb }) ∧
    (∀ index, index ≠ s.fb.length → memWrite index v s = .error (.frameBufferIndex index)) ∧
    (∀ index, s.fb.length ≤ index → memRead index s = .error (.frameBufferIndex index))

/-! ## Construction, reset and the invariant -/

/-- 70_reset_and_hazards.md section 1, the reset state with the reference build constants. NUM_LEDS is whatever the
construction argument is (log entry 1); the buffer without bound is the model's choice of an open constant (log
entry 2); an empty HIST is the spec's own choice (D20). That it is idle, no frame waiting and a step leaving the block
as it is, is the model's form of "idle and waits for its first command frame" (log entry 3). -/
def Obligations.ResetLeavesBlockIdle : Prop :=
  State.reset.fb = [] ∧ State.reset.hist = [] ∧ wireOrderCode State.reset.config.wireOrder = 0x21 ∧
  State.reset.config.postFailBuffer = .drained ∧ State.reset.config.fbCapacity = none ∧
  construct Config.numLeds 0x21 none .drained = .ok State.reset ∧
  State.reset.inbox = [] ∧ step State.reset = .next State.reset

/-- 70_reset_and_hazards.md section 1 (the spec's own choices D5, D13): construction is refused exactly for a field
that is no wire order or a capacity below nine bytes per LED; otherwise the block has the arguments as its
configuration, an empty buffer and an empty history. -/
def Obligations.ConstructionRefused : Prop :=
  ∀ (numLeds : Nat) (code : BitVec 6) (capacity : Option Nat) (post : PostFailBuffer),
    ((∃ e, construct numLeds code capacity post = .error e) ↔
      (code ∉ [0x24#6, 0x18#6, 0x21#6, 0x09#6, 0x12#6, 0x06#6] ∨ ∃ n, capacity = some n ∧ n < 9 * numLeds)) ∧
    (∀ s, construct numLeds code capacity post = .ok s →
      s.fb = [] ∧ s.hist = [] ∧ s.config.numLeds = numLeds ∧ wireOrderCode s.config.wireOrder = code ∧
      s.config.fbCapacity = capacity ∧ s.config.postFailBuffer = post)

/-- Every block that is constructed, the one at reset among them, meets the invariant. -/
def Obligations.ConstructionMeetsInvariant : Prop :=
  State.reset.Inv ∧
  ∀ (numLeds : Nat) (code : BitVec 6) (capacity : Option Nat) (post : PostFailBuffer) (s : State),
    construct numLeds code capacity post = .ok s → s.Inv

/-- 10_state.md R36 and R37, 20_memory.md section 3 and 30_encoding.md section A.4 as one invariant of the block between
two commands, kept by every step from every state that meets it, reachable or not. -/
def Obligations.StepKeepsInvariant : Prop := ∀ s t : State, s.Inv → step s = .next t → t.Inv

/-- 60_exceptions.md sections 1 and 3, 42_panel_controller.md "Control transfer": whatever frames the host has issued
and whatever the sink answers, the block runs them all, one response each and at most one transfer each, and is at
rest afterwards. That every frame completes rests on the assumption that every transfer returns an answer (log entry
10, the spec's own choice D23, unsafe for completion: a sink that hangs stops the device where the model goes on);
42_panel_controller.md R171 derives termination from the same assumption. -/
def Obligations.EveryFrameRunAnswered : Prop :=
  ∀ s : State, s.Inv → ∃ t : State, Host.Core.run core s.inbox.length s = .next t ∧
    t.inbox = [] ∧ t.responses.length = s.responses.length + s.inbox.length ∧
    t.hist.length ≤ s.hist.length + s.inbox.length ∧ t.config = s.config ∧ t.Inv

/-! ## The serial line -/

/-- 90_conflicts.md C1 (the spec's own inference): the bits a sink shifts out for channel encodings, under either
`SINK_BIT_ORDER`. Which of the two the hardware has is open. -/
def Obligations.SerialLineBits : Prop :=
  ∀ channels : List Byte,
    serialBits .lsbFirst (channels.flatMap encChannel) =
      channels.flatMap (fun b => (List.range 8).flatMap fun k => [false, b.getLsbD k, true]) ∧
    serialBits .msbFirst (channels.flatMap encChannel) =
      channels.flatMap (fun b =>
        [b.getLsbD 2, false, true, b.getLsbD 1, false, true, b.getLsbD 0, false,
         false, true, b.getLsbD 4, false, true, b.getLsbD 3, false, true,
         true, b.getLsbD 7, false, true, b.getLsbD 6, false, true, b.getLsbD 5])

/-- 70_reset_and_hazards.md section 4: under either bit order a payload of `N` colours takes `24*N` native bit
periods on the line, one symbol each. -/
def Obligations.PayloadNativePeriods : Prop :=
  ∀ (order : SinkBitOrder) (o : WireOrder) (cs : List Color),
    nativePeriods (serialBits order (cs.flatMap (pixelGroup o))) = 24 * cs.length
end

