-- ==== Sys2Proof/Laws/Decode.lean ====
section
/-! SUPPORT. One spec lemma for each function the decoder is made of. -/

namespace Sys2Proof

/-- The count field gives back any 32-bit count. -/
theorem le32_ofNat {n : Nat} (h : n ≤ 4294967295) :
    le32 (BitVec.ofNat 8 n) (BitVec.ofNat 8 (n / 256)) (BitVec.ofNat 8 (n / 65536))
      (BitVec.ofNat 8 (n / 16777216)) = n := by
  simp only [le32, BitVec.toNat_ofNat]
  omega

/-- The count field holds a 32-bit count. -/
theorem le32_le (n0 n1 n2 n3 : Byte) : le32 n0 n1 n2 n3 ≤ 4294967295 := by
  have h0 := n0.isLt
  have h1 := n1.isLt
  have h2 := n2.isLt
  have h3 := n3.isLt
  simp only [le32]
  omega

/-- The count's bytes are those it was read from. -/
theorem le32Bytes_le32 (n0 n1 n2 n3 : Byte) : le32Bytes (le32 n0 n1 n2 n3) = [n0, n1, n2, n3] := by
  have h0 := n0.isLt
  have h1 := n1.isLt
  have h2 := n2.isLt
  have h3 := n3.isLt
  simp only [le32Bytes, le32, List.cons.injEq, and_true]
  refine ⟨?_, ?_, ?_, ?_⟩ <;> apply BitVec.eq_of_toNat_eq <;> simp only [BitVec.toNat_ofNat] <;> omega

/-- Reading an encoded item gives it back with the bytes after it. -/
theorem takeItem_encode {item : Item} (h : item.wellFormed = true) (rest : Frame) :
    takeItem (item.encode ++ rest) = .ok (item, rest) := by
  cases item with
  | triple c => simp [Item.encode, takeItem]
  | hex chars =>
    have hl : chars.length ≤ 255 := by simpa [Item.wellFormed] using h
    have hm : chars.length % 256 = chars.length := Nat.mod_eq_of_lt (by omega)
    simp [Item.encode, takeItem, BitVec.toNat_ofNat, hm]

/-- Reading as many encoded items as there are gives them back with the bytes after them. -/
theorem takeItems_encode {items : List Item} (h : items.all Item.wellFormed = true) (rest : Frame) :
    takeItems items.length (items.flatMap Item.encode ++ rest) = .ok (items, rest) := by
  induction items with
  | nil => rfl
  | cons item items ih =>
    simp only [List.all_cons, Bool.and_eq_true] at h
    simp only [List.length_cons, takeItems, List.flatMap_cons, List.append_assoc, takeItem_encode h.1, ih h.2]

/-- An item that is read is well formed, and its bytes are those taken. -/
theorem takeItem_ok {f rest : Frame} {item : Item} (h : takeItem f = .ok (item, rest)) :
    item.wellFormed = true ∧ f = item.encode ++ rest := by
  unfold takeItem at h
  split at h
  · cases h
  · rename_i tag tail
    split at h
    · rename_i ht
      split at h
      · cases h
        exact ⟨rfl, by simp [Item.encode, ht]⟩
      · cases h
    · split at h
      · rename_i ht
        split at h
        · rename_i l cs
          split at h
          · rename_i hl
            cases h
            have hb := l.isLt
            refine ⟨by simp [Item.wellFormed]; omega, ?_⟩
            simp [Item.encode, ht, Nat.min_eq_left hl]
          · cases h
        · cases h
      · cases h

/-- Items that are read are well formed and as many as asked for, and their bytes are those taken. -/
theorem takeItems_ok {n : Nat} {f rest : Frame} {items : List Item} (h : takeItems n f = .ok (items, rest)) :
    items.length = n ∧ items.all Item.wellFormed = true ∧ f = items.flatMap Item.encode ++ rest := by
  induction n generalizing f items with
  | zero => cases h; simp
  | succ n ih =>
    simp only [takeItems] at h
    split at h
    · cases h
    · rename_i item f' hitem
      split at h
      · cases h
      · rename_i items' f'' hitems
        cases h
        obtain ⟨hw, hf⟩ := takeItem_ok hitem
        obtain ⟨hl, hall, hf'⟩ := ih hitems
        exact ⟨by simp [hl], by simp [hw] ; simpa using hall, by simp [hf, hf']⟩

end Sys2Proof
end

