-- ==== Sys2Proof/Laws/State.lean ====
section
/-! SUPPORT. One lemma per field per update of the state, so that no later proof unfolds a record update. -/

namespace Sys2Proof.Machine

@[simp] theorem fbPush_config (v : Byte) (s : State) : (fbPush v s).config = s.config := rfl

@[simp] theorem fbPush_fb (v : Byte) (s : State) : (fbPush v s).fb = s.fb ++ [v] := rfl

@[simp] theorem fbPush_hist (v : Byte) (s : State) : (fbPush v s).hist = s.hist := rfl

@[simp] theorem fbPush_inbox (v : Byte) (s : State) : (fbPush v s).inbox = s.inbox := rfl

@[simp] theorem fbPush_responses (v : Byte) (s : State) : (fbPush v s).responses = s.responses := rfl

@[simp] theorem fbPush_sinkAnswers (v : Byte) (s : State) : (fbPush v s).sinkAnswers = s.sinkAnswers := rfl

@[simp] theorem fbPush_sinkDraws (v : Byte) (s : State) : (fbPush v s).sinkDraws = s.sinkDraws := rfl


@[simp] theorem fbClear_config (s : State) : (fbClear s).config = s.config := rfl

@[simp] theorem fbClear_fb (s : State) : (fbClear s).fb = [] := rfl

@[simp] theorem fbClear_hist (s : State) : (fbClear s).hist = s.hist := rfl

@[simp] theorem fbClear_inbox (s : State) : (fbClear s).inbox = s.inbox := rfl

@[simp] theorem fbClear_responses (s : State) : (fbClear s).responses = s.responses := rfl

@[simp] theorem fbClear_sinkAnswers (s : State) : (fbClear s).sinkAnswers = s.sinkAnswers := rfl

@[simp] theorem fbClear_sinkDraws (s : State) : (fbClear s).sinkDraws = s.sinkDraws := rfl


@[simp] theorem respond_config (st : Status) (bytes : List Byte) (s : State) : (respond st bytes s).config = s.config := rfl

@[simp] theorem respond_fb (st : Status) (bytes : List Byte) (s : State) : (respond st bytes s).fb = s.fb := rfl

@[simp] theorem respond_hist (st : Status) (bytes : List Byte) (s : State) : (respond st bytes s).hist = s.hist := rfl

@[simp] theorem respond_inbox (st : Status) (bytes : List Byte) (s : State) : (respond st bytes s).inbox = s.inbox := rfl

@[simp] theorem respond_responses (st : Status) (bytes : List Byte) (s : State) : (respond st bytes s).responses = s.responses ++ [st.code :: bytes] := rfl

@[simp] theorem respond_sinkAnswers (st : Status) (bytes : List Byte) (s : State) : (respond st bytes s).sinkAnswers = s.sinkAnswers := rfl

@[simp] theorem respond_sinkDraws (st : Status) (bytes : List Byte) (s : State) : (respond st bytes s).sinkDraws = s.sinkDraws := rfl


@[simp] theorem raise_config (e : Status) (s : State) : (raise e s).config = s.config := rfl

@[simp] theorem raise_fb (e : Status) (s : State) : (raise e s).fb = s.fb := rfl

@[simp] theorem raise_hist (e : Status) (s : State) : (raise e s).hist = s.hist := rfl

@[simp] theorem raise_inbox (e : Status) (s : State) : (raise e s).inbox = s.inbox := rfl

@[simp] theorem raise_responses (e : Status) (s : State) : (raise e s).responses = s.responses ++ [[e.code]] := rfl

@[simp] theorem raise_sinkAnswers (e : Status) (s : State) : (raise e s).sinkAnswers = s.sinkAnswers := rfl

@[simp] theorem raise_sinkDraws (e : Status) (s : State) : (raise e s).sinkDraws = s.sinkDraws := rfl


@[simp] theorem transfer_config (p : List Byte) (s : State) : (transfer p s).2.config = s.config := rfl

@[simp] theorem transfer_fb (p : List Byte) (s : State) : (transfer p s).2.fb = s.fb := rfl

@[simp] theorem transfer_hist (p : List Byte) (s : State) : (transfer p s).2.hist = s.hist ++ [⟨p, nextAnswer s⟩] := rfl

@[simp] theorem transfer_inbox (p : List Byte) (s : State) : (transfer p s).2.inbox = s.inbox := rfl

@[simp] theorem transfer_responses (p : List Byte) (s : State) : (transfer p s).2.responses = s.responses := rfl

@[simp] theorem transfer_sinkAnswers (p : List Byte) (s : State) : (transfer p s).2.sinkAnswers = s.sinkAnswers.tail := rfl

@[simp] theorem transfer_sinkDraws (p : List Byte) (s : State) : (transfer p s).2.sinkDraws = s.sinkDraws + 1 := rfl


@[simp] theorem rejectFrame_config (s : State) : (rejectFrame s).config = s.config := rfl

@[simp] theorem rejectFrame_fb (s : State) : (rejectFrame s).fb = s.fb := rfl

@[simp] theorem rejectFrame_hist (s : State) : (rejectFrame s).hist = s.hist := rfl

@[simp] theorem rejectFrame_inbox (s : State) : (rejectFrame s).inbox = s.inbox := rfl

@[simp] theorem rejectFrame_responses (s : State) : (rejectFrame s).responses = s.responses ++ [[0x03]] := rfl

@[simp] theorem rejectFrame_sinkAnswers (s : State) : (rejectFrame s).sinkAnswers = s.sinkAnswers := rfl

@[simp] theorem rejectFrame_sinkDraws (s : State) : (rejectFrame s).sinkDraws = s.sinkDraws := rfl


@[simp] theorem placeFrame_config (f : Frame) (s : State) : (placeFrame f s).config = s.config := rfl

@[simp] theorem placeFrame_fb (f : Frame) (s : State) : (placeFrame f s).fb = s.fb := rfl

@[simp] theorem placeFrame_hist (f : Frame) (s : State) : (placeFrame f s).hist = s.hist := rfl

@[simp] theorem placeFrame_inbox (f : Frame) (s : State) : (placeFrame f s).inbox = f :: s.inbox := rfl

@[simp] theorem placeFrame_responses (f : Frame) (s : State) : (placeFrame f s).responses = s.responses := rfl

@[simp] theorem placeFrame_sinkAnswers (f : Frame) (s : State) : (placeFrame f s).sinkAnswers = s.sinkAnswers := rfl

@[simp] theorem placeFrame_sinkDraws (f : Frame) (s : State) : (placeFrame f s).sinkDraws = s.sinkDraws := rfl


@[simp] theorem afterResponse_config (s : State) (r : Frame) : (s.afterResponse r).config = s.config := rfl

@[simp] theorem afterResponse_fb (s : State) (r : Frame) : (s.afterResponse r).fb = s.fb := rfl

@[simp] theorem afterResponse_hist (s : State) (r : Frame) : (s.afterResponse r).hist = s.hist := rfl

@[simp] theorem afterResponse_inbox (s : State) (r : Frame) : (s.afterResponse r).inbox = s.inbox := rfl

@[simp] theorem afterResponse_responses (s : State) (r : Frame) : (s.afterResponse r).responses = s.responses ++ [r] := rfl

@[simp] theorem afterResponse_sinkAnswers (s : State) (r : Frame) : (s.afterResponse r).sinkAnswers = s.sinkAnswers := rfl

@[simp] theorem afterResponse_sinkDraws (s : State) (r : Frame) : (s.afterResponse r).sinkDraws = s.sinkDraws := rfl


@[simp] theorem afterTransfer_config (s : State) (p : List Byte) : (s.afterTransfer p).config = s.config := rfl

@[simp] theorem afterTransfer_fb (s : State) (p : List Byte) : (s.afterTransfer p).fb = leftAfter s.config p (nextAnswer s) := rfl

@[simp] theorem afterTransfer_hist (s : State) (p : List Byte) : (s.afterTransfer p).hist = s.hist ++ [⟨p, nextAnswer s⟩] := rfl

@[simp] theorem afterTransfer_inbox (s : State) (p : List Byte) : (s.afterTransfer p).inbox = s.inbox := rfl

@[simp] theorem afterTransfer_responses (s : State) (p : List Byte) : (s.afterTransfer p).responses = s.responses ++ [transferResponse (nextAnswer s)] := rfl

@[simp] theorem afterTransfer_sinkAnswers (s : State) (p : List Byte) : (s.afterTransfer p).sinkAnswers = s.sinkAnswers.tail := rfl

@[simp] theorem afterTransfer_sinkDraws (s : State) (p : List Byte) : (s.afterTransfer p).sinkDraws = s.sinkDraws + 1 := rfl


@[simp] theorem transfer_answer (p : List Byte) (s : State) : (transfer p s).1 = nextAnswer s := rfl

/-- The next answer depends on the sink's two fields alone. -/
theorem nextAnswer_congr {s t : State} (ha : t.sinkAnswers = s.sinkAnswers) (hd : t.sinkDraws = s.sinkDraws) :
    nextAnswer t = nextAnswer s := by
  unfold nextAnswer
  rw [ha, hd]

/-- A queued answer is the next one. -/
theorem nextAnswer_queued {s : State} {a : SinkAnswer} {rest : List SinkAnswer} (h : s.sinkAnswers = a :: rest) :
    nextAnswer s = a := by
  unfold nextAnswer
  rw [h]

/-- With nothing queued the next answer is free. -/
theorem nextAnswer_free {s : State} (h : s.sinkAnswers = []) : nextAnswer s = Config.sinkAnswer s.sinkDraws := by
  unfold nextAnswer
  rw [h]

end Sys2Proof.Machine
end

