-- ==== Sys2Proof/Laws/Operands.lean ====
section
/-! SUPPORT. What each operand form can give: sizes, the parser against the claims' own words for a colour input. -/

namespace Sys2Proof.Machine

/-! ## Sizes -/

@[simp] theorem length_encChannel (b : Byte) : (encChannel b).length = 3 := rfl

@[simp] theorem length_wireBytes (o : WireOrder) (c : Color) : (wireBytes o c).length = 3 := rfl

theorem length_flatMap_encChannel (channels : List Byte) :
    (channels.flatMap encChannel).length = 3 * channels.length := by
  induction channels with
  | nil => rfl
  | cons b bs ih => simp only [List.flatMap_cons, List.length_append, length_encChannel, List.length_cons, ih]; omega

@[simp] theorem length_pixelGroup (o : WireOrder) (c : Color) : (pixelGroup o c).length = 9 := by
  simp [pixelGroup]

theorem length_flatMap_pixelGroup (o : WireOrder) (cs : List Color) :
    (cs.flatMap (pixelGroup o)).length = 9 * cs.length := by
  induction cs with
  | nil => rfl
  | cons c cs ih => simp only [List.flatMap_cons, List.length_append, length_pixelGroup, List.length_cons, ih]; omega

/-! ## Bits -/

/-- The symbol sequence written out. -/
theorem symbolSequence_eq (b : Byte) : symbolSequence b =
    [false, b.getLsbD 0, true, false, b.getLsbD 1, true, false, b.getLsbD 2, true, false, b.getLsbD 3, true,
     false, b.getLsbD 4, true, false, b.getLsbD 5, true, false, b.getLsbD 6, true, false, b.getLsbD 7, true] := rfl

/-- A packed byte is the sum of its bits' places. -/
theorem toNat_packByte (x0 x1 x2 x3 x4 x5 x6 x7 : Bool) (rest : List Bool) :
    (packByte (x0 :: x1 :: x2 :: x3 :: x4 :: x5 :: x6 :: x7 :: rest)).toNat =
      x0.toNat + 2 * x1.toNat + 4 * x2.toNat + 8 * x3.toNat + 16 * x4.toNat + 32 * x5.toNat + 64 * x6.toNat +
        128 * x7.toNat := by
  have h0 := x0.toNat_le
  have h1 := x1.toNat_le
  have h2 := x2.toNat_le
  have h3 := x3.toNat_le
  have h4 := x4.toNat_le
  have h5 := x5.toNat_le
  have h6 := x6.toNat_le
  have h7 := x7.toNat_le
  simp only [packByte, bitsValue, List.take, BitVec.toNat_ofNat]
  omega

/-- A bit of three bytes read as one little-endian word. -/
theorem getLsbD_word24 (b2 b1 b0 : Byte) (i : Nat) : (b2 ++ b1 ++ b0).getLsbD i =
    if i < 8 then b0.getLsbD i else if i < 16 then b1.getLsbD (i - 8) else b2.getLsbD (i - 16) := by
  rw [BitVec.getLsbD_append, BitVec.getLsbD_append]
  split
  · rfl
  · split <;> split <;> first | rfl | omega

/-! ## Pixel data -/

theorem isPixelData_nil : IsPixelData [] := ⟨[], rfl, rfl⟩

/-- The concatenated pixel groups of any colours are pixel data. -/
theorem isPixelData_flatMap_pixelGroup (o : WireOrder) (cs : List Color) :
    IsPixelData (cs.flatMap (pixelGroup o)) := by
  refine ⟨cs.flatMap (wireBytes o), ?_, ?_⟩
  · induction cs with
    | nil => rfl
    | cons c cs ih => simp only [List.flatMap_cons, List.length_append, length_wireBytes]; omega
  · rw [List.flatMap_assoc]; rfl

/-- The pixel group of the dark colour under every wire order. -/
theorem pixelGroup_black (o : WireOrder) : pixelGroup o black = encChannel 0 ++ encChannel 0 ++ encChannel 0 := by
  cases o <;> rfl

/-- Dark colours are the encoding of 0 three times each, under every wire order. -/
theorem flatMap_pixelGroup_black (o : WireOrder) (n : Nat) :
    (List.replicate n black).flatMap (pixelGroup o) = (List.replicate (3 * n) (encChannel 0)).flatten := by
  induction n with
  | zero => rfl
  | succ n ih =>
    rw [List.replicate_succ, List.flatMap_cons, ih, pixelGroup_black, show 3 * (n + 1) = 3 * n + 1 + 1 + 1 by omega]
    simp [List.replicate_succ]

/-! ## Capacity -/

theorem overflows_eq_false_iff (c : BlockConfig) (n : Nat) : overflows c.fbCapacity n = false ↔ CountFits c n := by
  unfold overflows CountFits
  cases c.fbCapacity with
  | none => simp
  | some k => simp

theorem overflows_eq_true_iff (capacity : Option Nat) (n : Nat) :
    overflows capacity n = true ↔ ∃ k, capacity = some k ∧ k < 9 * n := by
  cases capacity with
  | none => simp [overflows]
  | some k => simp [overflows]

/-! ## Hex strings -/

/-- The parser's digit values are the claims' hex digits. -/
theorem hexValue_eq_some_iff (c v : Byte) : hexValue c = some v ↔ HexDigit c v.toNat := by
  have hc := c.isLt
  have hv := v.isLt
  have h30 : BitVec.toNat (0x30 : Byte) = 0x30 := rfl
  have h39 : BitVec.toNat (0x39 : Byte) = 0x39 := rfl
  have h41 : BitVec.toNat (0x41 : Byte) = 0x41 := rfl
  have h46 : BitVec.toNat (0x46 : Byte) = 0x46 := rfl
  have h61 : BitVec.toNat (0x61 : Byte) = 0x61 := rfl
  have h66 : BitVec.toNat (0x66 : Byte) = 0x66 := rfl
  have h37 : BitVec.toNat (0x37 : Byte) = 0x37 := rfl
  have h57 : BitVec.toNat (0x57 : Byte) = 0x57 := rfl
  simp only [hexValue, HexDigit, BitVec.le_def, h30, h39, h41, h46, h61, h66]
  split
  · simp only [Option.some.injEq, ← BitVec.toNat_inj, BitVec.toNat_sub, h30]; omega
  · split
    · simp only [Option.some.injEq, ← BitVec.toNat_inj, BitVec.toNat_sub, h37]; omega
    · split
      · simp only [Option.some.injEq, ← BitVec.toNat_inj, BitVec.toNat_sub, h57]; omega
      · simp only [reduceCtorEq, false_iff]; omega

/-- A hex digit's value is below 16. -/
theorem HexDigit.lt {c : Byte} {v : Nat} (h : HexDigit c v) : v < 16 := by
  unfold HexDigit at h; omega

theorem hexValue_of_hexDigit {c : Byte} {v : Nat} (h : HexDigit c v) : hexValue c = some (BitVec.ofNat 8 v) := by
  rw [hexValue_eq_some_iff]
  have := h.lt
  rwa [BitVec.toNat_ofNat, Nat.mod_eq_of_lt (by omega)]

theorem hexPair_eq_some_iff (first second v : Byte) : hexPair first second = some v ↔ PairValue first second v := by
  unfold hexPair PairValue
  constructor
  · intro h
    split at h
    · rename_i a b ha hb
      refine ⟨a.toNat, b.toNat, (hexValue_eq_some_iff _ _).1 ha, (hexValue_eq_some_iff _ _).1 hb, ?_⟩
      rw [← Option.some.inj h]
      apply BitVec.eq_of_toNat_eq
      simp
    · cases h
  · rintro ⟨a, b, ha, hb, rfl⟩
    rw [hexValue_of_hexDigit ha, hexValue_of_hexDigit hb]
    simp only [Option.some.injEq]
    apply BitVec.eq_of_toNat_eq
    simp

theorem parseColor_eq_some_iff (chars : List Byte) (c : Color) : parseColor chars = some c ↔ HexColor chars c := by
  unfold HexColor
  constructor
  · intro h
    unfold parseColor at h
    split at h
    · rename_i c0 c1 c2 c3 c4 c5
      split at h
      · rename_i r g b hr hg hb
        cases h
        exact ⟨c0, c1, c2, c3, c4, c5, rfl, (hexPair_eq_some_iff _ _ _).1 hr, (hexPair_eq_some_iff _ _ _).1 hg,
          (hexPair_eq_some_iff _ _ _).1 hb⟩
      · cases h
    · cases h
  · rintro ⟨c0, c1, c2, c3, c4, c5, rfl, hr, hg, hb⟩
    simp only [parseColor, (hexPair_eq_some_iff _ _ _).2 hr, (hexPair_eq_some_iff _ _ _).2 hg,
      (hexPair_eq_some_iff _ _ _).2 hb]

/-- A byte that is no hex digit has no value. -/
theorem hexValue_eq_none_iff (c : Byte) : hexValue c = none ↔ ∀ v, ¬ HexDigit c v := by
  rw [Option.eq_none_iff_forall_ne_some]
  constructor
  · intro h v hv
    exact h _ (hexValue_of_hexDigit hv)
  · intro h v hv
    exact h _ ((hexValue_eq_some_iff _ _).1 hv)

theorem hexPair_eq_none_iff (a b : Byte) : hexPair a b = none ↔ hexValue a = none ∨ hexValue b = none := by
  unfold hexPair
  cases hexValue a <;> cases hexValue b <;> simp

/-- The parser refuses exactly the malformed strings. -/
theorem parseColor_eq_none_iff (chars : List Byte) : parseColor chars = none ↔ MalformedHex chars := by
  unfold MalformedHex
  by_cases hl : chars.length = 6
  · obtain ⟨c0, c1, c2, c3, c4, c5, rfl⟩ : ∃ c0 c1 c2 c3 c4 c5, chars = [c0, c1, c2, c3, c4, c5] := by
      match chars, hl with
      | [c0, c1, c2, c3, c4, c5], _ => exact ⟨c0, c1, c2, c3, c4, c5, rfl⟩
    simp only [hl, ne_eq, not_true_eq_false, false_or, ← hexValue_eq_none_iff]
    have key : parseColor [c0, c1, c2, c3, c4, c5] = none ↔
        hexPair c0 c1 = none ∨ hexPair c2 c3 = none ∨ hexPair c4 c5 = none := by
      simp only [parseColor]
      cases hexPair c0 c1 <;> cases hexPair c2 c3 <;> cases hexPair c4 c5 <;> simp
    rw [key]
    simp only [hexPair_eq_none_iff, List.mem_cons, List.not_mem_nil, or_false, exists_eq_or_imp, exists_eq_left]
    tauto
  · simp only [ne_eq, hl, not_false_eq_true, true_or, iff_true]
    unfold parseColor
    split
    · simp at hl
    · rfl

/-! ## Items -/

theorem normalize_eq_some_iff (item : Item) (c : Color) : normalize item = some c ↔ ItemColor item c := by
  cases item with
  | triple c' => simp only [normalize, ItemColor, Option.some.injEq]; exact eq_comm
  | hex chars => exact parseColor_eq_some_iff chars c

/-- Phase 1 of SET_PIXELS succeeds with exactly the items' colours, in list order. -/
theorem normalizeAll_eq_some_iff (items : List Item) (cs : List Color) :
    normalizeAll items = some cs ↔ List.Forall₂ ItemColor items cs := by
  induction items generalizing cs with
  | nil => simp only [normalizeAll, Option.some.injEq, List.forall₂_nil_left_iff]; exact eq_comm
  | cons item items ih =>
    rw [List.forall₂_cons_left_iff]
    constructor
    · intro h
      unfold normalizeAll at h
      split at h
      · rename_i c cs' hc hcs
        cases h
        exact ⟨c, cs', (normalize_eq_some_iff _ _).1 hc, (ih _).1 hcs, rfl⟩
      · cases h
    · rintro ⟨c, cs', hc, hcs, rfl⟩
      simp only [normalizeAll, (normalize_eq_some_iff _ _).2 hc, (ih _).2 hcs]

/-- Phase 1 of SET_PIXELS fails exactly where an item is a malformed hex string. -/
theorem normalizeAll_eq_none_iff (items : List Item) :
    normalizeAll items = none ↔ ∃ chars, Item.hex chars ∈ items ∧ MalformedHex chars := by
  induction items with
  | nil => simp [normalizeAll]
  | cons item items ih =>
    have key : normalizeAll (item :: items) = none ↔ normalize item = none ∨ normalizeAll items = none := by
      simp only [normalizeAll]
      cases normalize item <;> cases normalizeAll items <;> simp
    rw [key, ih]
    cases item with
    | triple c => simp [normalize]
    | hex chars =>
      simp only [normalize, parseColor_eq_none_iff, List.mem_cons, Item.hex.injEq]
      constructor
      · rintro (h | ⟨cs, hm, h⟩)
        · exact ⟨chars, .inl rfl, h⟩
        · exact ⟨cs, .inr hm, h⟩
      · rintro ⟨cs, rfl | hm, h⟩
        · exact .inl h
        · exact .inr ⟨cs, hm, h⟩

theorem normalizeAll_triples (cs : List Color) : normalizeAll (cs.map Item.triple) = some cs := by
  induction cs with
  | nil => rfl
  | cons c cs ih => simp [normalizeAll, normalize, ih]

end Sys2Proof.Machine
end

