-- ==== Sys2Proof/Laws/Ops.lean ====
section
/-! SUPPORT. For each shared operation, once, everything it can do; then what a command and a step can do. -/

namespace Sys2Proof.Machine

/-! ## The Frame Buffer -/

theorem fbAppend_eq (bytes : List Byte) (s : State) : fbAppend bytes s = { s with fb := s.fb ++ bytes } := by
  induction bytes generalizing s with
  | nil => simp [fbAppend]
  | cons v bytes ih =>
    have := ih (fbPush v s)
    simp only [fbAppend, List.foldl_cons] at this ⊢
    rw [this]
    simp [fbPush]

theorem appendColor_eq (c : Color) (s : State) :
    appendColor c s = { s with fb := s.fb ++ pixelGroup s.config.wireOrder c } := by
  simp [appendColor, wireBytes, pixelGroup, fbAppend_eq]

theorem appendColors_eq (cs : List Color) (s : State) :
    appendColors cs s = { s with fb := s.fb ++ cs.flatMap (pixelGroup s.config.wireOrder) } := by
  induction cs generalizing s with
  | nil => simp [appendColors]
  | cons c cs ih =>
    have := ih (appendColor c s)
    simp only [appendColors, List.foldl_cons] at this ⊢
    rw [this]
    simp [appendColor_eq]

/-- A push is the one write the spec admits, at index `FB.len`. -/
theorem memWrite_at_length (v : Byte) (s : State) : memWrite s.fb.length v s = .ok (fbPush v s) := by
  simp [memWrite]

theorem memWrite_elsewhere {index : Nat} {v : Byte} {s : State} (h : index ≠ s.fb.length) :
    memWrite index v s = .error (.frameBufferIndex index) := by
  simp [memWrite, h]

theorem memRead_inside {index : Nat} {s : State} (h : index < s.fb.length) : memRead index s = .ok s.fb[index] := by
  simp [memRead, h]

theorem memRead_outside {index : Nat} {s : State} (h : s.fb.length ≤ index) :
    memRead index s = .error (.frameBufferIndex index) := by
  simp [memRead, h]

/-- Reads depend on the buffer alone. -/
theorem memRead_congr {s t : State} (h : t.fb = s.fb) (index : Nat) : memRead index t = memRead index s := by
  simp [memRead, h]

/-- The cell view of the Frame Buffer is canonical in every state, so every operation keeps it so. -/
theorem memory_wf (s : State) : Memory.wf s.memory = true := by
  have h : s.memory.map Prod.fst = List.range s.fb.length := by
    apply List.ext_getElem <;> simp [State.memory]
  have hp : (s.memory.map Prod.fst).Pairwise (· < ·) := h ▸ List.pairwise_lt_range
  simpa [Memory.wf] using List.pairwise_map.1 hp

theorem reset_memory_wf : Memory.wf State.reset.memory = true := memory_wf _

/-- A cell of the view is what a read of its address gives. -/
theorem mem_memory_iff (s : State) (index : Nat) (v : Byte) :
    (index, v) ∈ s.memory ↔ memRead index s = .ok v := by
  unfold memRead
  simp only [State.memory, List.mem_map, Prod.mk.injEq, Prod.exists]
  constructor
  · rintro ⟨b, i, hm, rfl, rfl⟩
    rw [List.mem_zipIdx_iff_getElem?] at hm
    simp [hm]
  · intro h
    split at h
    · rename_i w hw
      cases h
      exact ⟨v, index, List.mem_zipIdx_iff_getElem?.2 hw, rfl, rfl⟩
    · cases h

/-! ## The flush step -/

/-- Every command that transfers ends so: one event with the whole buffer, one response, the buffer as R160 says. -/
theorem finishFlush_eq (s : State) : finishFlush s = s.afterTransfer s.fb := by
  have hc := transfer_config s.fb s
  unfold finishFlush flushStep
  simp only [transfer_answer]
  cases h : nextAnswer s with
  | ok => simp [transfer, fbClear, respond, State.afterTransfer, h, leftAfter, transferResponse, Status.code]
  | fail =>
    cases hp : s.config.postFailBuffer <;>
      simp [transfer, fbClear, respond, raise, afterFailure, State.afterTransfer, h, hp, leftAfter, transferResponse,
        Status.code]

/-- The build and the flush of a command that starts from an empty buffer. -/
theorem finishFlush_build (cs : List Color) (s : State) :
    finishFlush (appendColors cs (fbClear s)) = s.afterTransfer (cs.flatMap (pixelGroup s.config.wireOrder)) := by
  rw [finishFlush_eq, appendColors_eq]
  rfl

/-- What a flush step leaves is nothing or the payload. -/
theorem leftAfter_cases (c : BlockConfig) (p : List Byte) (a : SinkAnswer) :
    leftAfter c p a = [] ∨ (leftAfter c p a = p ∧ c.postFailBuffer = .retained ∧ a = .fail) := by
  cases a with
  | ok => exact .inl rfl
  | fail =>
    cases h : c.postFailBuffer with
    | drained => exact .inl (by simp [leftAfter, h])
    | retained => exact .inr ⟨by simp [leftAfter, h], rfl, rfl⟩

/-! ## Commands -/

theorem execSetPixels_malformed {items : List Item} (h : normalizeAll items = none) (s : State) :
    execSetPixels items s = .next (s.afterResponse [0x01]) := by
  simp only [execSetPixels, h]; rfl

theorem execSetPixels_overflow {items : List Item} {cs : List Color} {s : State} (h : normalizeAll items = some cs)
    (ho : overflows s.config.fbCapacity cs.length = true) :
    execSetPixels items s = .next (s.afterResponse [0x04]) := by
  simp only [execSetPixels, h, ho, if_true]; rfl

theorem execSetPixels_sends {items : List Item} {cs : List Color} {s : State} (h : normalizeAll items = some cs)
    (ho : overflows s.config.fbCapacity cs.length = false) :
    execSetPixels items s = .next (s.afterTransfer (cs.flatMap (pixelGroup s.config.wireOrder))) := by
  simp only [execSetPixels, h, ho, finishFlush_build]; rfl

theorem execFlush_sends (s : State) : execFlush s = .next (s.afterTransfer s.fb) := by
  rw [execFlush, finishFlush_eq]

theorem execClearAll_sends (s : State) :
    execClearAll s = .next (s.afterTransfer
      ((List.replicate s.config.numLeds black).flatMap (pixelGroup s.config.wireOrder))) := by
  rw [execClearAll, finishFlush_build]

theorem execParseHex_good {chars : List Byte} {c : Color} (h : parseColor chars = some c) (s : State) :
    execParseHex chars s = .next (s.afterResponse [0x00, c.r, c.g, c.b]) := by
  simp only [execParseHex, h]; rfl

theorem execParseHex_malformed {chars : List Byte} (h : parseColor chars = none) (s : State) :
    execParseHex chars s = .next (s.afterResponse [0x01]) := by
  simp only [execParseHex, h]; rfl

/-- What a payload of a command can be: the colours of a SET_PIXELS or of a CLEAR_ALL, or the buffer as it stands. -/
inductive Sends (s : State) : Instr → List Byte → Prop where
  | setPixels {items : List Item} {cs : List Color} (h : List.Forall₂ ItemColor items cs)
      (hc : CountFits s.config cs.length) :
      Sends s (.setPixels items) (cs.flatMap (pixelGroup s.config.wireOrder))
  | flush : Sends s .flush s.fb
  | clearAll : Sends s .clearAll ((List.replicate s.config.numLeds black).flatMap (pixelGroup s.config.wireOrder))

/-- Everything a command can do: respond, or transfer and respond. -/
theorem exec_cases (i : Instr) (s : State) :
    (∃ r, ResponseAllowed i r ∧ r ≠ [0x00] ∧ r ≠ [0x02] ∧ exec i s = .next (s.afterResponse r)) ∨
    (∃ p, Sends s i p ∧ exec i s = .next (s.afterTransfer p)) := by
  cases i with
  | encodeChannel b => exact .inl ⟨_, .inl ⟨_, rfl, rfl⟩, by simp [encChannel], by simp [encChannel], rfl⟩
  | toWireOrder c => exact .inl ⟨_, .inl ⟨_, rfl, rfl⟩, by simp [wireBytes], by simp [wireBytes], rfl⟩
  | parseHex chars =>
    cases h : parseColor chars with
    | none =>
      exact .inl ⟨[0x01], .inr ⟨.invalidColorFormat, by simp [errorsOf], rfl⟩, by simp, by simp,
        execParseHex_malformed h s⟩
    | some c => exact .inl ⟨_, .inl ⟨_, rfl, rfl⟩, by simp, by simp, execParseHex_good h s⟩
  | setPixels items =>
    cases h : normalizeAll items with
    | none =>
      exact .inl ⟨[0x01], .inr ⟨.invalidColorFormat, by simp [errorsOf], rfl⟩, by simp, by simp,
        execSetPixels_malformed h s⟩
    | some cs =>
      cases ho : overflows s.config.fbCapacity cs.length with
      | true =>
        exact .inl ⟨[0x04], .inr ⟨.bufferOverflow, by simp [errorsOf], rfl⟩, by simp, by simp,
          execSetPixels_overflow h ho⟩
      | false =>
        exact .inr ⟨_, .setPixels ((normalizeAll_eq_some_iff _ _).1 h) ((overflows_eq_false_iff _ _).1 ho),
          execSetPixels_sends h ho⟩
  | flush => exact .inr ⟨_, .flush, execFlush_sends s⟩
  | clearAll => exact .inr ⟨_, .clearAll, execClearAll_sends s⟩

/-! ## Steps -/

theorem step_idle {s : State} (h : s.inbox = []) : step s = .next s := by
  simp [step, takeFrame, h]

theorem step_runs {s : State} {f : Frame} {rest : List Frame} {i : Instr} (h : s.inbox = f :: rest)
    (hd : decode f = .ok i) : step s = exec i { s with inbox := rest } := by
  simp [step, takeFrame, h, hd]

theorem step_rejects {s : State} {f : Frame} {rest : List Frame} {e : DecodeError} (h : s.inbox = f :: rest)
    (hd : decode f = .error e) :
    step s = .next ({ s with inbox := rest }.afterResponse [0x03]) := by
  simp only [step, takeFrame, h, hd]; rfl

/-- Everything a step can do: idle, reject a frame, or run the command the frame holds. -/
theorem step_cases (s : State) :
    (s.inbox = [] ∧ step s = .next s) ∨
    (∃ f rest e, s.inbox = f :: rest ∧ decode f = .error e ∧
      step s = .next ({ s with inbox := rest }.afterResponse [0x03])) ∨
    (∃ f rest i, s.inbox = f :: rest ∧ decode f = .ok i ∧ step s = exec i { s with inbox := rest }) := by
  cases h : s.inbox with
  | nil => exact .inl ⟨rfl, step_idle h⟩
  | cons f rest =>
    cases hd : decode f with
    | error e => exact .inr (.inl ⟨f, rest, e, rfl, hd, step_rejects h hd⟩)
    | ok i => exact .inr (.inr ⟨f, rest, i, rfl, hd, step_runs h hd⟩)

end Sys2Proof.Machine
end

