-- ==== Sys2Proof/Laws/PerInstr.lean ====
section
/-! SUPPORT. Per-instruction families: `Layout`, the opcode and the length of each command's frame
(30_encoding.md R102 to R107). -/

namespace Sys2Proof

/-- The bytes of an item as R105 counts them. -/
def Item.layoutBytes : Item → Nat
  | .triple _ => 4
  | .hex chars => 2 + chars.length

/-- The bytes of a command's frame as R102 to R107 count them. -/
def Instr.layoutBytes : Instr → Nat
  | .encodeChannel _ => 2
  | .toWireOrder _ => 4
  | .parseHex chars => 2 + chars.length
  | .setPixels items => 5 + (items.map Item.layoutBytes).sum
  | .flush => 1
  | .clearAll => 1

theorem Item.length_encode (item : Item) : item.encode.length = item.layoutBytes := by
  cases item with
  | triple c => rfl
  | hex chars => simp [Item.encode, Item.layoutBytes]; omega

theorem Item.length_flatMap_encode (items : List Item) :
    (items.flatMap Item.encode).length = (items.map Item.layoutBytes).sum := by
  simp [List.length_flatMap, Item.length_encode]

namespace Laws.Layout

/-- The frame begins with the opcode of R100's table and has the length its layout gives. -/
def Statement (i : Instr) : Prop :=
  (encode i).head? = some i.opcode ∧ (encode i).length = i.layoutBytes

theorem encodeChannel (b : Byte) : Statement (.encodeChannel b) := ⟨rfl, rfl⟩

theorem toWireOrder (c : Color) : Statement (.toWireOrder c) := ⟨rfl, rfl⟩

theorem parseHex (chars : List Byte) : Statement (.parseHex chars) :=
  ⟨rfl, by simp [encode, Instr.operandBytes, Instr.layoutBytes]; omega⟩

theorem setPixels (items : List Item) : Statement (.setPixels items) := by
  refine ⟨rfl, ?_⟩
  simp only [encode, Instr.operandBytes, Instr.layoutBytes, List.length_cons, List.length_append,
    Item.length_flatMap_encode, le32Bytes, List.length_nil]
  omega

theorem flush : Statement .flush := ⟨rfl, rfl⟩

theorem clearAll : Statement .clearAll := ⟨rfl, rfl⟩

end Laws.Layout

end Sys2Proof
end

