-- ==== Sys2Proof/Machine/Text.lean ====
section
/-! DEFINITION. The textual syntax of a command, the source's own call notation (30_encoding.md R111): one line per
command, numbers in decimal, a hex string as its characters. -/

namespace Sys2Proof.Machine

/-- A channel byte as a decimal number 0 to 255; R111 admits `0x` hexadecimal beside it, the model writes the one form
(log entry 15). -/
def byteText (b : Byte) : String := toString b.toNat

/-- A colour, `Color(r, g, b)`. -/
def colorText (c : Color) : String :=
  "Color(" ++ byteText c.r ++ ", " ++ byteText c.g ++ ", " ++ byteText c.b ++ ")"

/-- The characters of a hex string, in quotes (R111). DESIGN CHOICE, log entry 15: the spec gives no character for a
byte above 0x7F (95_test_vectors.md H17 writes such a string as bytes), and the model writes the Unicode code point of
the byte's number; it gives no escape either, and a quote or a line break in the string stands as it is. -/
def charsText (chars : List Byte) : String :=
  "\"" ++ String.ofList (chars.map fun b => Char.ofNat b.toNat) ++ "\""

/-- A SET_PIXELS item: a triple item is `Color(r, g, b)`, a hex-string item its string. -/
def itemText : Item → String
  | .triple c => colorText c
  | .hex chars => charsText chars

/-- The line of a command (R111). -/
def commandText : Instr → String
  | .encodeChannel b => "encode_channel(" ++ byteText b ++ ")"
  | .toWireOrder c => "to_wire_order(" ++ colorText c ++ ")"
  | .parseHex chars => "parse_hex(" ++ charsText chars ++ ")"
  | .setPixels items => "set_pixels([" ++ ", ".intercalate (items.map itemText) ++ "])"
  | .flush => "flush()"
  | .clearAll => "clear_all()"

end Sys2Proof.Machine
end

