-- ==== Sys2Proof/Tests/Slice0.lean ====
section
/-! SUPPORT. Tests: ill-formed terms, frames and results taken from 95_test_vectors.md, and for every statement with
hypotheses a witness that meets them. -/

namespace Sys2Proof.Tests

open Sys2Proof.Machine

/-- A block with one LED, GRB, no bound. -/
def block (post : PostFailBuffer) (answers : List SinkAnswer) : State :=
  { State.ofConfig ⟨1, .grb, none, post⟩ with sinkAnswers := answers }

/-- A block whose buffer holds bytes of an earlier failed transfer (95 §2.4 SP6). -/
def stale (post : PostFailBuffer) (answers : List SinkAnswer) : State :=
  { block post answers with fb := [52, 73, 146, 38, 73, 146, 54, 73, 146] }

/-- A block with a frame waiting. -/
def waiting (f : Frame) : State := { block .drained [.ok] with inbox := [f] }

/-- The outcome's last response and the last event, none where the step stopped. -/
def lastResponse (o : Host.Outcome State Fault Refusal) : Option Frame :=
  match o with
  | .next t => t.responses.getLast?
  | _ => none

def lastEvent (o : Host.Outcome State Fault Refusal) : Option TransferEvent :=
  match o with
  | .next t => t.hist.getLast?
  | _ => none

def bufferOf (o : Host.Outcome State Fault Refusal) : Option (List Byte) :=
  match o with
  | .next t => some t.fb
  | _ => none

/-! ## WellFormed -/

theorem test_ill_formed_parse_hex : (Instr.parseHex (List.replicate 256 0x30)).wellFormed = false := by
  simp only [Instr.wellFormed, List.length_replicate]
  decide

theorem test_ill_formed_item : (Instr.setPixels [.hex (List.replicate 256 0x30)]).wellFormed = false := by
  simp only [Instr.wellFormed, Item.wellFormed, List.all_cons, List.length_replicate]
  decide

theorem test_ill_formed_count (items : List Item) (h : items.length = 4294967296) :
    (Instr.setPixels items).wellFormed = false := by
  simp only [Instr.wellFormed, h, Bool.and_eq_false_iff]
  exact .inl (by decide)

theorem test_well_formed_bounds : (Instr.parseHex (List.replicate 255 0x30)).wellFormed = true := by
  simp only [Instr.wellFormed, List.length_replicate]
  decide

/-! ## Decode: frames of 95_test_vectors.md -/

theorem test_decode_encode_channel : decode [0x01, 0xA5] = .ok (.encodeChannel 0xA5) := by decide

theorem test_decode_to_wire_order : decode [0x02, 0x11, 0x22, 0x33] = .ok (.toWireOrder ⟨0x11, 0x22, 0x33⟩) := by
  decide

theorem test_decode_parse_hex : decode [0x03, 0x01, 0x33] = .ok (.parseHex [0x33]) := by decide

theorem test_decode_set_pixels : decode [0x10, 1, 0, 0, 0, 0x01, 6, 0x30, 0x30, 0x33, 0x33, 0x30, 0x30] =
    .ok (.setPixels [.hex [0x30, 0x30, 0x33, 0x33, 0x30, 0x30]]) := by decide

theorem test_decode_set_pixels_empty : decode [0x10, 0, 0, 0, 0] = .ok (.setPixels []) := by decide

theorem test_decode_flush : decode [0x11] = .ok .flush := by decide

theorem test_decode_clear_all : decode [0x12] = .ok .clearAll := by decide

/-- 95 §2.7, X1 to X16 in order, with the case of R108 each falls under. -/
theorem test_decode_illegal :
    decode [] = .error .emptyFrame ∧ decode [0x00] = .error (.unknownOpcode 0x00) ∧
    decode [0x04] = .error (.unknownOpcode 0x04) ∧ decode [0x13] = .error (.unknownOpcode 0x13) ∧
    decode [0xFF] = .error (.unknownOpcode 0xFF) ∧ decode [0x01] = .error (.wrongLength 0x01) ∧
    decode [0x01, 0x00, 0x00] = .error (.wrongLength 0x01) ∧
    decode [0x02, 0x01, 0x02] = .error (.wrongLength 0x02) ∧ decode [0x03] = .error (.wrongLength 0x03) ∧
    decode [0x03, 0x06, 0x33] = .error (.wrongLength 0x03) ∧
    decode [0x10, 0x01, 0x00, 0x00] = .error (.wrongLength 0x10) ∧
    decode [0x10, 0x01, 0x00, 0x00, 0x00] = .error (.wrongLength 0x10) ∧
    decode [0x10, 0x01, 0x00, 0x00, 0x00, 0x02, 0x01, 0x02, 0x03] = .error (.badItemTag 0x02) ∧
    decode [0x10, 0x00, 0x00, 0x00, 0x00, 0x00] = .error (.wrongLength 0x10) ∧
    decode [0x11, 0x00] = .error (.wrongLength 0x11) ∧ decode [0x12, 0x00] = .error (.wrongLength 0x12) := by
  decide

theorem test_table_words :
    decodeTableWord 16 0x3301 = some (.encodeChannel 0x33) ∧ decodeTableWord 8 0x01 = some (.encodeChannel 0) ∧
    decodeTableWord 32 0x30201002 = some (.toWireOrder ⟨0x10, 0x20, 0x30⟩) ∧
    decodeTableWord 8 0x03 = some (.parseHex []) ∧ decodeTableWord 8 0x10 = some (.setPixels []) ∧
    decodeTableWord 8 0x11 = some .flush ∧ decodeTableWord 8 0x12 = some .clearAll ∧
    decodeTableWord 8 0x13 = none := by decide

/-- One command of a batch whose item is all zeros above the bits given. -/
theorem test_table_word_zero_items : decodeTableWord 16 0x0110 = some (.setPixels [.triple ⟨0, 0, 0⟩]) := by decide

/-- The first instruction after reset, for every row of the table. -/
theorem test_first_step_from_reset :
    ([0x01, 0x02, 0x03, 0x10, 0x11, 0x12].all fun w =>
      match step (State.reset.withFetchWord 8 w) with
      | .next _ => true
      | _ => false) = true := by decide

/-- 95 §3 program 1 step 1, its textual form. -/
theorem test_command_text :
    commandText (.setPixels [.triple ⟨0x33, 0, 0⟩, .hex [0x30, 0x30, 0x33, 0x33, 0x30, 0x30]]) =
      "set_pixels([Color(51, 0, 0), \"003300\"])" := by decide

/-! ## Results: rows of 95_test_vectors.md -/

/-- 95 §3 program 3 step 4. -/
theorem test_encode_channel_a5 :
    lastResponse (exec (.encodeChannel 0xA5) (block .drained [])) = some [0x00, 0xA6, 0x49, 0xD3] := by decide

/-- 95 §2.1 E9. -/
theorem test_encode_channel_aa :
    lastResponse (exec (.encodeChannel 0xAA) (block .drained [])) = some [0x00, 0x34, 0x4D, 0xD3] := by decide

/-- 95 §2.2 W1 to W6. -/
theorem test_to_wire_order_all :
    ([WireOrder.rgb, .rbg, .grb, .gbr, .brg, .bgr].map fun o =>
      lastResponse (exec (.toWireOrder ⟨0x11, 0x22, 0x33⟩) (State.ofConfig ⟨1, o, none, .drained⟩))) =
    [some [0x00, 0x11, 0x22, 0x33], some [0x00, 0x11, 0x33, 0x22], some [0x00, 0x22, 0x11, 0x33],
     some [0x00, 0x22, 0x33, 0x11], some [0x00, 0x33, 0x11, 0x22], some [0x00, 0x33, 0x22, 0x11]] := by decide

/-- 95 §2.3 H3, H7: the first digit is high, either case. -/
theorem test_parse_hex_good :
    lastResponse (exec (.parseHex [0x31, 0x32, 0x33, 0x34, 0x35, 0x36]) (block .drained [])) =
      some [0x00, 0x12, 0x34, 0x56] ∧
    lastResponse (exec (.parseHex [0x61, 0x30, 0x42, 0x31, 0x63, 0x32]) (block .drained [])) =
      some [0x00, 0xA0, 0xB1, 0xC2] := by decide

/-- 95 §2.3 H8, H9, H12, H14, H16, H17. -/
theorem test_parse_hex_bad :
    ([[0x23, 0x33, 0x33, 0x30, 0x30, 0x30, 0x30], [0x23, 0x33, 0x33, 0x30, 0x30, 0x30],
      [0x47, 0x47, 0x30, 0x30, 0x30, 0x30], [], [0x61, 0x62, 0x63, 0x64, 0x65, 0x67],
      [0x30, 0x30, 0x30, 0x30, 0x30, 0xE9]].all fun (chars : List Byte) =>
      lastResponse (exec (.parseHex chars) (block .drained [])) = some [0x01]) = true := by decide

/-- 95 §1 S11. -/
theorem test_set_pixels_scenario :
    lastEvent (exec (.setPixels [.triple ⟨0x33, 0, 0⟩, .triple ⟨0, 0x33, 0⟩]) (block .drained [.ok])) =
      some ⟨[36, 73, 146, 54, 105, 147, 36, 73, 146, 54, 105, 147, 36, 73, 146, 36, 73, 146], .ok⟩ := by decide

/-- 95 §2.4 SP8 and SP10: over capacity, and the malformed item first. -/
theorem test_set_pixels_priority :
    lastResponse (exec (.setPixels [.triple ⟨1, 1, 1⟩, .triple ⟨2, 2, 2⟩, .triple ⟨3, 3, 3⟩])
      (State.ofConfig ⟨2, .grb, some 18, .drained⟩)) = some [0x04] ∧
    lastResponse (exec (.setPixels [.triple ⟨1, 1, 1⟩, .triple ⟨2, 2, 2⟩, .triple ⟨3, 3, 3⟩, .hex [0x7A, 0x7A]])
      (State.ofConfig ⟨2, .grb, some 18, .drained⟩)) = some [0x01] := by decide

/-- 95 §2.5 F4 and F5: under `RETAINED` the retry sends the bytes again, and keeps them on a second failure. -/
theorem test_flush_retry :
    lastEvent (exec .flush (stale .retained [.ok])) = some ⟨[52, 73, 146, 38, 73, 146, 54, 73, 146], .ok⟩ ∧
    bufferOf (exec .flush (stale .retained [.ok])) = some [] ∧
    bufferOf (exec .flush (stale .retained [.fail])) = some [52, 73, 146, 38, 73, 146, 54, 73, 146] := by decide

/-- 95 §2.5 F2. -/
theorem test_flush_fails_empty :
    lastEvent (exec .flush (block .drained [.fail])) = some ⟨[], .fail⟩ ∧
    lastResponse (exec .flush (block .drained [.fail])) = some [0x02] := by decide

/-- 95 §2.6 CL6. -/
theorem test_clear_all_discards_stale :
    lastEvent (exec .clearAll (stale .retained [.ok])) = some ⟨[36, 73, 146, 36, 73, 146, 36, 73, 146], .ok⟩ := by
  decide

/-- 95 §2.6 CL4. -/
theorem test_clear_all_fails :
    lastResponse (exec .clearAll (block .drained [.fail])) = some [0x02] ∧
    bufferOf (exec .clearAll (block .drained [.fail])) = some [] := by decide

/-- 95 §2.2, the refused constructions, and 70 R222 at the bound of program 3. -/
theorem test_construct_refused :
    construct 1 0x00 none .drained = .error .illegalWireOrder ∧
    construct 1 0x3F none .drained = .error .illegalWireOrder ∧
    construct 1 0x25 none .drained = .error .illegalWireOrder ∧
    construct 1 0x27 none .drained = .error .illegalWireOrder ∧
    construct 3 0x21 (some 26) .drained = .error .capacityBelowPanel ∧
    construct 3 0x21 (some 27) .drained = .ok (State.ofConfig ⟨3, .grb, some 27, .drained⟩) := by decide

/-! ## Witnesses: for every statement with hypotheses, values that meet them together -/

/-- StepRunsDecodedCommand, OneResponsePerFrame, DecodedFrameIsEncoding, LegalFrameLength, DecodeOfEncode,
IllegalFramesAnswered (its inbox). -/
theorem test_witness_decoded_frame :
    (waiting [0x10, 1, 0, 0, 0, 0x01, 0]).inbox = [0x10, 1, 0, 0, 0, 0x01, 0] :: [] ∧
    decode [0x10, 1, 0, 0, 0, 0x01, 0] = .ok (.setPixels [.hex []]) ∧
    (Instr.setPixels [.hex []]).wellFormed = true := by decide

/-- EmptyInboxStaysIdle. -/
theorem test_witness_idle : State.reset.inbox = [] := rfl

/-- IllegalFramesAnswered: every case of the list, at the edges of its lengths (95 §2.7 X1, X4, X6 to X16). -/
theorem test_witness_illegal_layouts :
    IllegalLayout [] ∧ IllegalLayout [0x13] ∧ IllegalLayout [0x01] ∧ IllegalLayout [0x01, 0, 0] ∧
    IllegalLayout [0x02, 1, 2] ∧ IllegalLayout [0x03] ∧ IllegalLayout [0x03, 6, 0x33] ∧
    IllegalLayout [0x10, 1, 0, 0] ∧ IllegalLayout [0x11, 0] ∧ IllegalLayout [0x12, 0] :=
  ⟨.empty, .unknownOpcode (by decide), .encodeChannelLength (by decide), .encodeChannelLength (by decide),
    .toWireOrderLength (by decide), .parseHexLengthMissing, .parseHexLength (by decide), .countCut (by decide),
    .flushLength (by decide), .clearAllLength (by decide)⟩

/-- IllegalFramesAnswered, the cases of SET_PIXELS items: none, a triple cut short after one item, a hex item without
its length, one cut short, an unknown tag, a byte after the last item. -/
theorem test_witness_illegal_items :
    IllegalLayout [0x10, 1, 0, 0, 0] ∧ IllegalLayout [0x10, 2, 0, 0, 0, 0, 7, 8, 9, 0, 1, 2] ∧
    IllegalLayout [0x10, 1, 0, 0, 0, 1] ∧ IllegalLayout [0x10, 1, 0, 0, 0, 1, 2, 0x30] ∧
    IllegalLayout [0x10, 1, 0, 0, 0, 2, 1, 2, 3] ∧ IllegalLayout [0x10, 0, 0, 0, 0, 0] :=
  ⟨.itemsEnd (n := 1) (items := []) (by decide) rfl (by decide) .missing,
    .itemsEnd (n := 2) (items := [.triple ⟨7, 8, 9⟩]) (by decide) rfl (by decide) (.tripleCut (part := [1, 2]) (by decide)),
    .itemsEnd (n := 1) (items := []) (by decide) rfl (by decide) .hexLengthMissing,
    .itemsEnd (n := 1) (items := []) (by decide) rfl (by decide) (.hexCut (l := 2) (part := [0x30]) (by decide)),
    .itemsEnd (n := 1) (items := []) (by decide) rfl (by decide)
      (.unknownTag (tag := 2) (part := [1, 2, 3]) (by decide) (by decide)),
    .bytesAfterItems (items := []) (tail := [0]) (by decide) rfl (by decide)⟩

/-- EncoderIsPureAndShared, SetPixelsSends, StaleBytesDiscarded and PayloadsAreConcatenatedGroups at the bound of a
finite buffer: two colours in 18 bytes. -/
theorem test_witness_count_fits : CountFits ⟨2, .grb, some 18, .retained⟩ 2 ∧ CountFits ⟨0, .rgb, none, .drained⟩ 1 :=
  ⟨(fun n h => by cases h; decide), (fun n h => by cases h)⟩

/-- ToWireOrderPicksSlots, its second clause. -/
theorem test_witness_grb : (block .drained []).config.wireOrder = .grb := rfl

/-- ParseHexResult: "330000". -/
theorem test_witness_hex_color : HexColor [0x33, 0x33, 0x30, 0x30, 0x30, 0x30] ⟨0x33, 0, 0⟩ :=
  (parseColor_eq_some_iff _ _).1 (by decide)

/-- InvalidColorFormatRaised: the length and the character, alone. -/
theorem test_witness_malformed :
    MalformedHex [0x33, 0x33, 0x30, 0x30, 0x30] ∧ MalformedHex [0x47, 0x47, 0x30, 0x30, 0x30, 0x30] ∧
    ∃ chars, Item.hex chars ∈ [Item.triple ⟨1, 2, 3⟩, .hex [0x47, 0x47, 0x30, 0x30, 0x30, 0x30]] ∧
      MalformedHex chars :=
  ⟨(parseColor_eq_none_iff _).1 (by decide), (parseColor_eq_none_iff _).1 (by decide),
    [0x47, 0x47, 0x30, 0x30, 0x30, 0x30], by decide, (parseColor_eq_none_iff _).1 (by decide)⟩

/-- InvalidColorFormatRaised, its converse. -/
theorem test_witness_invalid_answered :
    exec (.parseHex []) (block .drained []) = .next ((block .drained []).afterResponse [0x01]) ∧
    ((block .drained []).afterResponse [0x01]).responses = (block .drained []).responses ++ [[0x01]] := ⟨rfl, rfl⟩

/-- ItemFormsAgree, SetPixelsSends, StaleBytesDiscarded: the two forms of one colour. -/
theorem test_witness_item_forms :
    List.Forall₂ ItemColor [.hex [0x30, 0x30, 0x33, 0x33, 0x30, 0x30]] [⟨0, 0x33, 0⟩] ∧
    List.Forall₂ ItemColor [.triple ⟨0, 0x33, 0⟩] [⟨0, 0x33, 0⟩] ∧
    CountFits (block .drained []).config 1 :=
  ⟨(normalizeAll_eq_some_iff _ _).1 (by decide), (normalizeAll_eq_some_iff _ _).1 (by decide),
    fun n h => by cases h⟩

/-- SetPixelsOverflow: 27 bytes of payload into 26. -/
theorem test_witness_overflow :
    List.Forall₂ ItemColor [.triple black, .triple black, .triple black] [black, black, black] ∧
    (State.ofConfig ⟨2, .grb, some 26, .drained⟩).config.fbCapacity = some 26 ∧
    26 < 9 * [black, black, black].length :=
  ⟨(normalizeAll_eq_some_iff _ _).1 (by decide), rfl, by decide⟩

/-- FlushResult, its three clauses, and BusTransferErrorRaised. -/
theorem test_witness_sink_answers :
    nextAnswer (stale .retained [.ok]) = .ok ∧
    (nextAnswer (stale .drained [.fail]) = .fail ∧ (stale .drained [.fail]).config.postFailBuffer = .drained) ∧
    (nextAnswer (stale .retained [.fail]) = .fail ∧ (stale .retained [.fail]).config.postFailBuffer = .retained) := by
  decide

/-- BusTransferErrorRaised, its converse and its last clause. -/
theorem test_witness_bus_error_answered :
    exec .flush (block .drained [.fail]) = .next ((block .drained [.fail]).afterTransfer []) ∧
    ((block .drained [.fail]).afterTransfer []).responses = (block .drained [.fail]).responses ++ [[0x02]] := by
  constructor <;> rfl

/-- FlushAfterFailure: a CLEAR_ALL whose transfer fails, under each `POST_FAIL_BUFFER`; ClearAllIgnoresOrderAndStale,
PanelCommandsFrame. -/
theorem test_witness_failed_clear_all (post : PostFailBuffer) :
    exec .clearAll (block post [.fail]) =
      .next ((block post [.fail]).afterTransfer [36, 73, 146, 36, 73, 146, 36, 73, 146]) ∧
    ((block post [.fail]).afterTransfer [36, 73, 146, 36, 73, 146, 36, 73, 146]).hist =
      (block post [.fail]).hist ++ [⟨[36, 73, 146, 36, 73, 146, 36, 73, 146], .fail⟩] ∧
    Instr.clearAll ≠ .flush := by
  cases post <;> exact ⟨rfl, rfl, by decide⟩

/-- BufferEmptyAtRest, its first clause. -/
theorem test_witness_success :
    exec .flush (stale .retained [.ok]) =
      .next ((stale .retained [.ok]).afterTransfer [52, 73, 146, 38, 73, 146, 54, 73, 146]) ∧
    ((stale .retained [.ok]).afterTransfer [52, 73, 146, 38, 73, 146, 54, 73, 146]).responses =
      (stale .retained [.ok]).responses ++ [[0x00]] := ⟨rfl, rfl⟩

/-- BufferEmptyAtRest, its second clause, on an illegal frame; ConfigurationImmutable, HistoryWrittenOnly,
StepKeepsInvariant. -/
theorem test_witness_step_illegal :
    (waiting [0x13]).config.postFailBuffer = .drained ∧ (waiting [0x13]).fb = [] ∧
    step (waiting [0x13]) = .next ((block .drained [.ok]).afterResponse [0x03]) := ⟨rfl, rfl, rfl⟩

/-- QueriesChangeNothing, NumLedsReadByClearAllOnly. -/
theorem test_witness_query :
    exec (.encodeChannel 1) (stale .retained []) =
      .next ((stale .retained []).afterResponse [0x00, 38, 73, 146]) ∧
    Instr.encodeChannel 1 ≠ .clearAll := ⟨rfl, by decide⟩

/-- ConstructionRefused and ConstructionMeetsInvariant, their last clauses. -/
theorem test_witness_constructed :
    construct 2 0x24 (some 18) .retained = .ok (State.ofConfig ⟨2, .rgb, some 18, .retained⟩) := by decide

/-- StepKeepsInvariant and EveryFrameRunAnswered: a block that holds the payload of a failed transfer, with frames
waiting. -/
theorem test_witness_invariant_retained :
    State.Inv { stale .retained [] with
      hist := [⟨[52, 73, 146, 38, 73, 146, 54, 73, 146], .fail⟩], inbox := [[0x11], [0x13]] } := by
  have hp : IsPixelData [52, 73, 146, 38, 73, 146, 54, 73, 146] := ⟨[2, 1, 3], rfl, by decide⟩
  refine ⟨(fun n h => by cases h), ⟨hp, ?_⟩, ⟨(fun n h => by cases h), ?_⟩, Or.inr ⟨rfl, rfl⟩⟩
  · intro e he
    rw [List.mem_singleton.1 he]
    exact hp
  · intro e _ n h
    cases h

end Sys2Proof.Tests
end

/-! The transfer history (10_state.md R38): what a command and a step add to it does not depend on what stands in it. -/

namespace Sys2Proof.Machine

/-- The same block with another history. -/
def State.withHist (s : State) (h : List TransferEvent) : State := { s with hist := h }

/-- From `s` with any history in place of its own, `run` reaches one and the same state, but for the history, which has
grown by the same events: at most one, with the sink's answer, one sink answer used for it. -/
def AppendsToAnyHist (run : State → Host.Outcome State Fault Refusal) (s : State) : Prop :=
  ∃ (events : List TransferEvent) (t : State), events.length ≤ 1 ∧ t.sinkDraws = s.sinkDraws + events.length ∧
    (∀ e ∈ events, e.answer = nextAnswer s) ∧
    ∀ h, run (s.withHist h) = .next (t.withHist (h ++ events))

section
variable {run : State → Host.Outcome State Fault Refusal} {s : State}

theorem appendsToAnyHist_of_unchanged {t : State} (hd : t.sinkDraws = s.sinkDraws)
    (hrun : ∀ h, run (s.withHist h) = .next (t.withHist h)) : AppendsToAnyHist run s :=
  ⟨[], t, Nat.zero_le 1, hd, by simp, fun h => by rw [hrun h, List.append_nil]⟩

theorem appendsToAnyHist_of_afterResponse (r : Frame)
    (hrun : ∀ h, run (s.withHist h) = .next ((s.withHist h).afterResponse r)) : AppendsToAnyHist run s :=
  appendsToAnyHist_of_unchanged (t := s.afterResponse r) rfl hrun

theorem appendsToAnyHist_of_afterTransfer (p : List Byte)
    (hrun : ∀ h, run (s.withHist h) = .next ((s.withHist h).afterTransfer p)) : AppendsToAnyHist run s :=
  ⟨[⟨p, nextAnswer s⟩], s.afterTransfer p, le_rfl, rfl, by simp, hrun⟩

end

/-- No command reads the history: whether it transfers, and what, is settled by its operands, the configuration and the
buffer. -/
theorem exec_appendsToAnyHist (i : Instr) (s : State) : AppendsToAnyHist (exec i) s := by
  cases i with
  | encodeChannel b => exact appendsToAnyHist_of_afterResponse (0x00 :: encChannel b) fun _ => rfl
  | toWireOrder c => exact appendsToAnyHist_of_afterResponse (0x00 :: wireBytes s.config.wireOrder c) fun _ => rfl
  | parseHex chars =>
    cases hp : parseColor chars with
    | none => exact appendsToAnyHist_of_afterResponse [0x01] fun h => execParseHex_malformed hp (s.withHist h)
    | some c =>
      exact appendsToAnyHist_of_afterResponse [0x00, c.r, c.g, c.b] fun h => execParseHex_good hp (s.withHist h)
  | setPixels items =>
    cases hn : normalizeAll items with
    | none => exact appendsToAnyHist_of_afterResponse [0x01] fun h => execSetPixels_malformed hn (s.withHist h)
    | some cs =>
      cases ho : overflows s.config.fbCapacity cs.length with
      | true =>
        exact appendsToAnyHist_of_afterResponse [0x04] fun h => execSetPixels_overflow (s := s.withHist h) hn ho
      | false =>
        exact appendsToAnyHist_of_afterTransfer (cs.flatMap (pixelGroup s.config.wireOrder))
          fun h => execSetPixels_sends (s := s.withHist h) hn ho
  | flush => exact appendsToAnyHist_of_afterTransfer s.fb fun h => execFlush_sends (s.withHist h)
  | clearAll =>
    exact appendsToAnyHist_of_afterTransfer
      ((List.replicate s.config.numLeds black).flatMap (pixelGroup s.config.wireOrder))
      fun h => execClearAll_sends (s.withHist h)

theorem step_appendsToAnyHist (s : State) : AppendsToAnyHist step s := by
  obtain ⟨hi, -⟩ | ⟨f, rest, e, hi, hd, -⟩ | ⟨f, rest, i, hi, hd, -⟩ := step_cases s
  · exact appendsToAnyHist_of_unchanged rfl fun h => step_idle (s := s.withHist h) hi
  · exact appendsToAnyHist_of_unchanged (t := State.afterResponse { s with inbox := rest } [0x03]) rfl
      fun h => step_rejects (s := s.withHist h) hi hd
  · obtain ⟨events, t, hlen, hdraws, hans, hrun⟩ := exec_appendsToAnyHist i { s with inbox := rest }
    exact ⟨events, t, hlen, hdraws, hans, fun h => (step_runs (s := s.withHist h) hi hd).trans (hrun h)⟩

/-- Settles O39: the step appends the same events to any history, so also to the one the state has. -/
theorem historyWrittenOnly : Obligations.HistoryWrittenOnly := by
  refine ⟨fun s t h hstep => ?_, rfl⟩
  obtain ⟨events, u, hlen, hdraws, hans, hrun⟩ := step_appendsToAnyHist s
  obtain rfl : u.withHist (s.hist ++ events) = t := Host.Outcome.next.inj ((hrun s.hist).symm.trans hstep)
  exact ⟨events, hlen, rfl, hdraws, hans, hrun h⟩

end Sys2Proof.Machine

/-! The encoding (30_encoding.md part A): the symbols of a channel byte and how they are packed (R80 to R82), and the
pixel groups a payload is made of (R90, R91). -/

namespace Sys2Proof.Machine

/-! ## Symbols -/

/-- `sym[i]` of R82: symbol bit `i` of a channel byte. -/
def symbolBit (b : Byte) (i : Nat) : Bool := (symbolSequence b).getD i false

/-- Three symbol bits for each source bit, in source-bit order: leading low, the bit, trailing high. -/
theorem symbolBit_of_sourceBit (b : Byte) {k : Nat} (hk : k < 8) :
    symbolBit b (3 * k) = false ∧ symbolBit b (3 * k + 1) = b.getLsbD k ∧ symbolBit b (3 * k + 2) = true := by
  unfold symbolBit
  rw [symbolSequence_eq]
  interval_cases k <;> exact ⟨rfl, rfl, rfl⟩

@[simp] theorem length_symbolSequence (b : Byte) : (symbolSequence b).length = 24 := rfl

/-- Packing puts element `i` of the list at place `2^i`. -/
theorem toNat_packByte_eq_sum {bits : List Bool} (h : 8 ≤ bits.length) :
    (packByte bits).toNat = ∑ i ∈ Finset.range 8, (bits.getD i false).toNat * 2 ^ i := by
  match bits, h with
  | x0 :: x1 :: x2 :: x3 :: x4 :: x5 :: x6 :: x7 :: rest, _ =>
    rw [toNat_packByte]
    simp only [Finset.sum_range_succ, Finset.sum_range_zero, List.getD_cons_zero, List.getD_cons_succ]
    omega

/-- The byte packed from offset `m` of the sequence is the sum of the eight symbol bits from there. -/
theorem toNat_packByte_drop_symbolSequence (b : Byte) {m : Nat} (hm : m ≤ 16) :
    (packByte ((symbolSequence b).drop m)).toNat =
      ∑ i ∈ Finset.range 8, (symbolBit b (m + i)).toNat * 2 ^ i := by
  have hlen : 8 ≤ ((symbolSequence b).drop m).length := by
    rw [List.length_drop, length_symbolSequence]
    omega
  simp only [toNat_packByte_eq_sum hlen, symbolBit, List.getD_eq_getElem?_getD, List.getElem?_drop]

/-- Settles O10: the symbol bits are those of the model's sequence, packed from offsets 0, 8 and 16. -/
theorem encodeChannelSymbols : Obligations.EncodeChannelSymbols := by
  intro b s
  have hgroup0 := toNat_packByte_drop_symbolSequence b (m := 0) (by decide)
  have hgroup1 := toNat_packByte_drop_symbolSequence b (m := 8) (by decide)
  have hgroup2 := toNat_packByte_drop_symbolSequence b (m := 16) (by decide)
  simp only [List.drop_zero, Nat.zero_add] at hgroup0
  exact ⟨symbolBit b, _, _, _, fun k hk => symbolBit_of_sourceBit b hk, hgroup0, hgroup1, hgroup2, rfl⟩

/-! ## Payloads -/

/-- A pixel group is the encodings of the bytes TO_WIRE_ORDER answers, in that order. -/
theorem pixelGroup_eq (o : WireOrder) (c : Color) : pixelGroup o c =
    encChannel (pick (slots o).1 c) ++ encChannel (pick (slots o).2.1 c) ++ encChannel (pick (slots o).2.2 c) := by
  simp [pixelGroup, wireBytes]

/-- A SET_PIXELS of typed triples that fit transfers their pixel groups. -/
theorem exec_setPixels_triples {s : State} {cs : List Color} (h : CountFits s.config cs.length) :
    exec (.setPixels (cs.map .triple)) s =
      .next (s.afterTransfer (cs.flatMap (pixelGroup s.config.wireOrder))) :=
  execSetPixels_sends (normalizeAll_triples cs) ((overflows_eq_false_iff _ _).2 h)

/-- A CLEAR_ALL transfers the encoding of 0 three times per LED, under every wire order. -/
theorem exec_clearAll_dark (s : State) :
    exec .clearAll s =
      .next (s.afterTransfer (List.replicate (3 * s.config.numLeds) (encChannel 0)).flatten) := by
  rw [← flatMap_pixelGroup_black s.config.wireOrder]
  exact execClearAll_sends s

theorem length_flatten_replicate_encChannel (n : Nat) (b : Byte) :
    (List.replicate (3 * n) (encChannel b)).flatten.length = 9 * n := by
  rw [List.length_flatten, List.map_replicate, List.sum_replicate, length_encChannel, smul_eq_mul]
  omega

/-- Settles O24: the groups of a SET_PIXELS are the pixel groups of its colours, one each. -/
theorem payloadsAreConcatenatedGroups : Obligations.PayloadsAreConcatenatedGroups := by
  intro s
  constructor
  · intro cs hfit
    refine ⟨_, cs.map (pixelGroup s.config.wireOrder), exec_setPixels_triples hfit, rfl,
      length_flatMap_pixelGroup _ cs, ?_⟩
    rw [List.forall₂_map_right_iff, List.forall₂_same]
    intro c _
    refine ⟨⟨_, _, _, rfl, pixelGroup_eq _ c⟩, fun hgrb => ?_⟩
    rw [hgrb]
    exact pixelGroup_eq .grb c
  · exact ⟨_, _, exec_clearAll_dark s, rfl, rfl, length_flatten_replicate_encChannel _ 0⟩

end Sys2Proof.Machine

/-! The Symbol Encoder as a command (40_symbol_encoder.md, R120 to R123): what ENCODE_CHANNEL answers, and that the panel
commands build their payloads with the same encoder. -/

namespace Sys2Proof.Machine

/-! ## Rules of the two queries on channel bytes -/

/-- R120: one success response with the encoding of the byte, and nothing else. -/
theorem exec_encodeChannel (b : Byte) (s : State) :
    exec (.encodeChannel b) s = .next (s.afterResponse (0x00 :: encChannel b)) := rfl

/-- R140: one success response with the channels in wire order, and nothing else. -/
theorem exec_toWireOrder (c : Color) (s : State) :
    exec (.toWireOrder c) s = .next (s.afterResponse (0x00 :: wireBytes s.config.wireOrder c)) := rfl

/-! ## Fixed bytes -/

theorem encChannel_zero : encChannel 0 = [36, 73, 146] := by decide

theorem encChannel_one : encChannel 1 = [38, 73, 146] := by decide

theorem encChannel_max : encChannel 255 = [182, 109, 219] := by decide

/-! ## Payload of one colour -/

/-- A SET_PIXELS of one typed colour that fits transfers exactly the pixel group of that colour. -/
theorem exec_setPixels_single {s : State} (h : CountFits s.config 1) (c : Color) :
    exec (.setPixels [.triple c]) s = .next (s.afterTransfer (pixelGroup s.config.wireOrder c)) := by
  rw [← List.flatMap_singleton (pixelGroup s.config.wireOrder) c]
  exact exec_setPixels_triples (cs := [c]) h

/-! ## The statements -/

/-- Settles O15: the shared function is `encChannel`, by the rules of the four commands. -/
theorem encoderIsPureAndShared : Obligations.EncoderIsPureAndShared := by
  refine ⟨encChannel, fun s => ⟨fun b => exec_encodeChannel b s, fun c hfit => ?_, ?_⟩⟩
  · refine ⟨_, _, _, _, exec_toWireOrder c s, exec_setPixels_single hfit c, ?_⟩
    rw [afterTransfer_hist, pixelGroup_eq]
  · exact ⟨_, exec_clearAll_dark s, afterTransfer_hist s _⟩

/-- Settles O13: the rule of ENCODE_CHANNEL at the three bytes. -/
theorem encodeChannelVectors : Obligations.EncodeChannelVectors := by
  intro s
  rw [exec_encodeChannel, exec_encodeChannel, exec_encodeChannel, encChannel_zero, encChannel_one, encChannel_max]
  exact ⟨rfl, rfl, rfl⟩

/-- Settles O14: the result is an encoding, and every encoding has three bytes. -/
theorem encodeChannelThreeBytes : Obligations.EncodeChannelThreeBytes :=
  fun b s => ⟨encChannel b, exec_encodeChannel b s, length_encChannel b⟩

end Sys2Proof.Machine

/-! Channel reorder (41_reorder_and_color_input.md, R140 and R141): the slots of the 6-bit `WIRE_ORDER` field, the channel
a slot's code picks, and what TO_WIRE_ORDER answers. -/

namespace Sys2Proof.Machine

/-! ## The slots of the 6-bit field -/

@[simp] theorem extractLsb'_slot0_wireOrderCode (o : WireOrder) :
    (wireOrderCode o).extractLsb' 0 2 = channelCode (slots o).1 := by
  cases o <;> rfl

@[simp] theorem extractLsb'_slot1_wireOrderCode (o : WireOrder) :
    (wireOrderCode o).extractLsb' 2 2 = channelCode (slots o).2.1 := by
  cases o <;> rfl

@[simp] theorem extractLsb'_slot2_wireOrderCode (o : WireOrder) :
    (wireOrderCode o).extractLsb' 4 2 = channelCode (slots o).2.2 := by
  cases o <;> rfl

/-! ## The channel a code picks -/

/-- `pick` of R141, by the channel's 2-bit code as the pseudocode reads it. -/
theorem pick_eq_ite_channelCode (ch : Channel) (c : Color) :
    pick ch c = if channelCode ch = 0 then c.r else if channelCode ch = 1 then c.g else c.b := by
  cases ch <;> rfl

theorem wireBytes_grb (c : Color) : wireBytes .grb c = [c.g, c.r, c.b] := rfl

/-! ## The command -/

/-- The frame of R140's encoding line. -/
theorem decode_toWireOrder (c : Color) : decode [0x02, c.r, c.g, c.b] = .ok (.toWireOrder c) := rfl

/-- Settles O17: each slot of the field is the code of the channel sent at its wire position, and picks that channel's
byte. -/
theorem toWireOrderPicksSlots : Obligations.ToWireOrderPicksSlots := by
  intro c s
  refine ⟨decode_toWireOrder c, ?_, fun hgrb => ?_⟩
  · simp only [extractLsb'_slot0_wireOrderCode, extractLsb'_slot1_wireOrderCode, extractLsb'_slot2_wireOrderCode,
      ← pick_eq_ite_channelCode]
    exact exec_toWireOrder c s
  · rw [exec_toWireOrder, hgrb, wireBytes_grb]
    rfl

end Sys2Proof.Machine

/-! The Panel Controller's append step and CLEAR_ALL (42_panel_controller.md, R161 and R166), from the rules of
`AppendColor` and of a command that transfers. -/

namespace Sys2Proof.Machine

/-! ## The outcome of a transfer as conditions -/

/-- A payload stays in the buffer only after a failure under RETAINED (R160). -/
theorem leftAfter_eq_ite (c : BlockConfig) (p : List Byte) (a : SinkAnswer) :
    leftAfter c p a = if a = .fail ∧ c.postFailBuffer = .retained then p else [] := by
  cases a with
  | ok => simp [leftAfter]
  | fail => cases h : c.postFailBuffer <;> simp [leftAfter, h]

theorem transferResponse_eq_ite (a : SinkAnswer) :
    transferResponse a = if a = .ok then [0x00] else [0x02] := by
  cases a <;> rfl

/-! ## The statements -/

/-- Settles O30: CLEAR_ALL transfers the encoding of 0, which is the three fixed bytes, three times per LED. -/
theorem clearAllSendsDark : Obligations.ClearAllSendsDark := by
  refine ⟨rfl, fun s => ⟨_, _, exec_clearAll_dark s, ?_, length_flatten_replicate_encChannel _ 0, ?_⟩⟩
  · rw [encChannel_zero]
  · rw [← leftAfter_eq_ite, ← transferResponse_eq_ite]
    rfl

/-- Settles O27: the append step adds the pixel group of the colour, which is the encodings of the bytes TO_WIRE_ORDER
answers. -/
theorem appendStepAddsNineBytes : Obligations.AppendStepAddsNineBytes := by
  intro c s
  exact ⟨_, _, _, pixelGroup s.config.wireOrder c, exec_toWireOrder c s, pixelGroup_eq _ c, length_pixelGroup _ c,
    appendColor_eq c s⟩

end Sys2Proof.Machine

/-! Two errors of a well-framed command (60_exceptions.md R191, R192): which commands answer `InvalidColorFormat` and
`BusTransferError`, and when. -/

namespace Sys2Proof.Machine

/-! ## The response of a command -/

/-- A command from a given state has one response: what a rule gives as its response is what was observed. -/
theorem exec_response_unique {i : Instr} {s t u : State} {r r' : Frame} (hexec : exec i s = .next t)
    (hresp : t.responses = s.responses ++ [r']) (hrule : exec i s = .next u) (hr : u.responses = s.responses ++ [r]) :
    r = r' := by
  obtain rfl : u = t := Host.Outcome.next.inj (hrule.symm.trans hexec)
  exact List.singleton_inj.1 (List.append_cancel_left (hr.symm.trans hresp))

theorem transferResponse_ne_invalidColorFormat (a : SinkAnswer) : transferResponse a ≠ [0x01] := by
  cases a <;> decide

theorem transferResponse_eq_busTransferError_iff (a : SinkAnswer) : transferResponse a = [0x02] ↔ a = .fail := by
  cases a <;> decide

/-! ## InvalidColorFormat -/

theorem exec_parseHex_malformed {chars : List Byte} (h : MalformedHex chars) (s : State) :
    exec (.parseHex chars) s = .next (s.afterResponse [0x01]) :=
  execParseHex_malformed ((parseColor_eq_none_iff chars).2 h) s

theorem exec_setPixels_malformed {items : List Item} (h : ∃ chars, Item.hex chars ∈ items ∧ MalformedHex chars)
    (s : State) : exec (.setPixels items) s = .next (s.afterResponse [0x01]) :=
  execSetPixels_malformed ((normalizeAll_eq_none_iff items).2 h) s

theorem malformedHex_of_parseHex_response {chars : List Byte} {s t : State} (hexec : exec (.parseHex chars) s = .next t)
    (hresp : t.responses = s.responses ++ [[0x01]]) : MalformedHex chars := by
  rw [← parseColor_eq_none_iff]
  cases hp : parseColor chars with
  | none => rfl
  | some c => exact absurd (exec_response_unique hexec hresp (execParseHex_good hp s) rfl) (by simp)

/-- Once every item is normalised a SET_PIXELS overflows or transfers, and neither answers 0x01. -/
theorem exists_malformedHex_of_setPixels_response {items : List Item} {s t : State}
    (hexec : exec (.setPixels items) s = .next t) (hresp : t.responses = s.responses ++ [[0x01]]) :
    ∃ chars, Item.hex chars ∈ items ∧ MalformedHex chars := by
  rw [← normalizeAll_eq_none_iff]
  cases hn : normalizeAll items with
  | none => rfl
  | some cs =>
    cases ho : overflows s.config.fbCapacity cs.length with
    | true => exact absurd (exec_response_unique hexec hresp (execSetPixels_overflow hn ho) rfl) (by decide)
    | false =>
      exact absurd (exec_response_unique hexec hresp (execSetPixels_sends hn ho) rfl)
        (transferResponse_ne_invalidColorFormat _)

/-- Settles O21: the rules of the two commands on malformed input, and for the converse the one response each command has
otherwise. -/
theorem invalidColorFormatRaised : Obligations.InvalidColorFormatRaised := by
  refine ⟨fun s chars h => exec_parseHex_malformed h s, fun s items h => exec_setPixels_malformed h s,
    fun s t i hexec hresp => ?_⟩
  cases i with
  | encodeChannel b => exact absurd (exec_response_unique hexec hresp (exec_encodeChannel b s) rfl) (by simp)
  | toWireOrder c => exact absurd (exec_response_unique hexec hresp (exec_toWireOrder c s) rfl) (by simp)
  | parseHex chars => exact .inl ⟨chars, rfl, malformedHex_of_parseHex_response hexec hresp⟩
  | setPixels items =>
    obtain ⟨chars, hmem, hmal⟩ := exists_malformedHex_of_setPixels_response hexec hresp
    exact .inr ⟨items, chars, rfl, hmem, hmal⟩
  | flush =>
    exact absurd (exec_response_unique hexec hresp (execFlush_sends s) rfl) (transferResponse_ne_invalidColorFormat _)
  | clearAll =>
    exact absurd (exec_response_unique hexec hresp (execClearAll_sends s) rfl)
      (transferResponse_ne_invalidColorFormat _)

/-! ## BusTransferError -/

/-- A command that has a payload transfers it. -/
theorem exec_of_sends {i : Instr} {s : State} {p : List Byte} (h : Sends s i p) :
    exec i s = .next (s.afterTransfer p) := by
  cases h with
  | setPixels hcs hfit =>
    exact execSetPixels_sends ((normalizeAll_eq_some_iff _ _).2 hcs) ((overflows_eq_false_iff _ _).2 hfit)
  | flush => exact execFlush_sends s
  | clearAll => exact execClearAll_sends s

/-- The three flushing commands, a SET_PIXELS only where it passes its checks, are those that have a payload. -/
theorem exists_sends_iff (i : Instr) (s : State) : (∃ p, Sends s i p) ↔
    i = .flush ∨ i = .clearAll ∨
      ∃ items cs, i = .setPixels items ∧ List.Forall₂ ItemColor items cs ∧ CountFits s.config cs.length := by
  constructor
  · rintro ⟨p, hsends⟩
    cases hsends with
    | setPixels hcs hfit => exact .inr (.inr ⟨_, _, rfl, hcs, hfit⟩)
    | flush => exact .inl rfl
    | clearAll => exact .inr (.inl rfl)
  · rintro (rfl | rfl | ⟨items, cs, rfl, hcs, hfit⟩)
    · exact ⟨_, .flush⟩
    · exact ⟨_, .clearAll⟩
    · exact ⟨_, .setPixels hcs hfit⟩

/-- Only a command that transferred, and met a failing sink, answers 0x02. -/
theorem sends_of_busTransferError_response {i : Instr} {s t : State} (hexec : exec i s = .next t)
    (hresp : t.responses = s.responses ++ [[0x02]]) :
    ∃ p, Sends s i p ∧ nextAnswer s = .fail ∧ t = s.afterTransfer p := by
  obtain ⟨r, -, -, hne, hr⟩ | ⟨p, hsends, hp⟩ := exec_cases i s
  · exact absurd (exec_response_unique hexec hresp hr rfl) hne
  · have hfail := exec_response_unique hexec hresp hp rfl
    exact ⟨p, hsends, (transferResponse_eq_busTransferError_iff _).1 hfail,
      Host.Outcome.next.inj (hexec.symm.trans hp)⟩

/-- Settles O33: a flushing command makes one transfer with the sink's answer, no other command answers 0x02, and every
command appends at most one event to the history. -/
theorem busTransferErrorRaised : Obligations.BusTransferErrorRaised := by
  refine ⟨fun s i hfail hi => ?_, fun s t i hexec hresp => ?_, fun s t i hexec => ?_⟩
  · obtain ⟨p, hsends⟩ := (exists_sends_iff i s).2 hi
    refine ⟨_, p, exec_of_sends hsends, ?_, ?_, afterTransfer_sinkDraws s p⟩
    · rw [afterTransfer_responses, hfail, transferResponse]
    · rw [afterTransfer_hist, hfail]
  · obtain ⟨p, hsends, hfail, rfl⟩ := sends_of_busTransferError_response hexec hresp
    refine ⟨?_, hfail, p, by rw [afterTransfer_hist, hfail]⟩
    obtain hi | hi | ⟨items, -, hi, -, -⟩ := (exists_sends_iff i s).1 ⟨p, hsends⟩
    · exact .inl hi
    · exact .inr (.inl hi)
    · exact .inr (.inr ⟨items, hi⟩)
  · obtain ⟨events, u, hlen, hdraws, -, hrun⟩ := exec_appendsToAnyHist i s
    obtain rfl : u.withHist (s.hist ++ events) = t := Host.Outcome.next.inj ((hrun s.hist).symm.trans hexec)
    exact ⟨events, hlen, rfl, hdraws⟩

end Sys2Proof.Machine

/-! Frames (30_encoding.md part B, R100 to R110): the decoder undoes the encoder, refuses every listed illegal encoding,
and the two kinds of frame leave none out. -/

namespace Sys2Proof.Machine

/-! ## The length byte and the count field -/

/-- The length byte gives back any length it can hold. -/
theorem toNat_lengthByte {n : Nat} (h : n ≤ 255) : (BitVec.ofNat 8 n).toNat = n := by
  rw [BitVec.toNat_ofNat]
  exact Nat.mod_eq_of_lt (by omega)

/-- Four bytes or more begin with the count field of some 32-bit count. -/
theorem exists_eq_le32Bytes_append {tail : Frame} (h : 4 ≤ tail.length) :
    ∃ n rest, n ≤ 4294967295 ∧ tail = le32Bytes n ++ rest := by
  match tail, h with
  | n0 :: n1 :: n2 :: n3 :: rest, _ =>
    exact ⟨le32 n0 n1 n2 n3, rest, le32_le n0 n1 n2 n3, by rw [le32Bytes_le32]; rfl⟩

/-! ## The decoder on a PARSE_HEX and on a SET_PIXELS frame -/

theorem decode_parseHex {l : Byte} {chars : Frame} (h : l.toNat = chars.length) :
    decode (0x03 :: l :: chars) = .ok (.parseHex chars) :=
  if_pos h

theorem decode_parseHex_wrongLength {l : Byte} {chars : Frame} (h : chars.length ≠ l.toNat) :
    decode (0x03 :: l :: chars) = .error (.wrongLength 0x03) :=
  if_neg h.symm

section
variable {n : Nat} {rest : Frame} (hn : n ≤ 4294967295)
include hn

theorem decode_setPixels {items : List Item} (h : takeItems n rest = .ok (items, [])) :
    decode (0x10 :: (le32Bytes n ++ rest)) = .ok (.setPixels items) := by
  change decodeSetPixels (le32Bytes n ++ rest) = _
  simp [decodeSetPixels, le32Bytes, le32_ofNat hn, h]

theorem decode_setPixels_bytesAfterItems {items : List Item} {tail : Frame} (ht : tail ≠ [])
    (h : takeItems n rest = .ok (items, tail)) :
    decode (0x10 :: (le32Bytes n ++ rest)) = .error (.wrongLength 0x10) := by
  change decodeSetPixels (le32Bytes n ++ rest) = _
  cases tail with
  | nil => exact absurd rfl ht
  | cons v tail => simp [decodeSetPixels, le32Bytes, le32_ofNat hn, h]

theorem decode_setPixels_itemError {e : DecodeError} (h : takeItems n rest = .error e) :
    decode (0x10 :: (le32Bytes n ++ rest)) = .error e := by
  change decodeSetPixels (le32Bytes n ++ rest) = _
  simp [decodeSetPixels, le32Bytes, le32_ofNat hn, h]

end

/-- A count field cut short. -/
theorem decode_setPixels_countCut {tail : Frame} (h : tail.length < 4) :
    decode (0x10 :: tail) = .error (.wrongLength 0x10) := by
  match tail, h with
  | [], _ => rfl
  | [_], _ => rfl
  | [_, _], _ => rfl
  | [_, _, _], _ => rfl

/-! ## Decoding an encoding -/

/-- The decoder gives back every well-formed command from its frame. -/
theorem decode_encode {i : Instr} (h : i.wellFormed = true) : decode (encode i) = .ok i := by
  cases i with
  | encodeChannel b => rfl
  | toWireOrder c => rfl
  | parseHex chars => exact decode_parseHex (toNat_lengthByte (of_decide_eq_true h))
  | setPixels items =>
    obtain ⟨hlen, hitems⟩ := Bool.and_eq_true_iff.1 h
    refine decode_setPixels (of_decide_eq_true hlen) ?_
    simpa using takeItems_encode hitems []
  | flush => rfl
  | clearAll => rfl

/-- Settles O4: the decoder undoes the encoder, command by command. -/
theorem decodeOfEncode : Obligations.DecodeOfEncode := fun _ h => decode_encode h

/-! ## Illegal encodings are refused -/

theorem takeItem_illegal {f : Frame} (h : IllegalItem f) : ∃ e, takeItem f = .error e := by
  cases h with
  | missing => exact ⟨_, rfl⟩
  | @tripleCut part hlen =>
    match part, hlen with
    | [], _ => exact ⟨_, rfl⟩
    | [_], _ => exact ⟨_, rfl⟩
    | [_, _], _ => exact ⟨_, rfl⟩
  | hexLengthMissing => exact ⟨_, rfl⟩
  | hexCut hlen => exact ⟨.wrongLength 0x10, if_neg (Nat.not_le.2 hlen)⟩
  | @unknownTag tag part h0 h1 => exact ⟨.badItemTag tag, by simp only [takeItem, if_neg h0, if_neg h1]⟩

/-- The items before the illegal one are read, then its error is answered. -/
theorem takeItems_illegal {items : List Item} {tail : Frame} (hw : items.all Item.wellFormed = true)
    (ht : IllegalItem tail) {n : Nat} (hn : items.length < n) :
    ∃ e, takeItems n (items.flatMap Item.encode ++ tail) = .error e := by
  induction items generalizing n with
  | nil =>
    obtain ⟨e, he⟩ := takeItem_illegal ht
    cases n with
    | zero => exact absurd hn (Nat.not_lt_zero _)
    | succ n => exact ⟨e, by simp only [List.flatMap_nil, List.nil_append, takeItems, he]⟩
  | cons item items ih =>
    obtain ⟨hitem, hitems⟩ := Bool.and_eq_true_iff.1 hw
    cases n with
    | zero => exact absurd hn (Nat.not_lt_zero _)
    | succ n =>
      obtain ⟨e, he⟩ := ih hitems (Nat.lt_of_succ_lt_succ hn)
      exact ⟨e, by simp only [List.flatMap_cons, List.append_assoc, takeItems, takeItem_encode hitem, he]⟩

theorem decode_unknownOpcode {op : Byte} {tail : Frame} (h : op ∉ [0x01, 0x02, 0x03, 0x10, 0x11, 0x12]) :
    decode (op :: tail) = .error (.unknownOpcode op) := by
  simp only [List.mem_cons, List.not_mem_nil, or_false, not_or] at h
  obtain ⟨h1, h2, h3, h10, h11, h12⟩ := h
  simp only [decode, if_neg h1, if_neg h2, if_neg h3, if_neg h10, if_neg h11, if_neg h12]

/-- The decoder refuses every listed illegal encoding. -/
theorem decode_illegalLayout {f : Frame} (h : IllegalLayout f) : ∃ e, decode f = .error e := by
  cases h with
  | empty => exact ⟨_, rfl⟩
  | unknownOpcode hop => exact ⟨_, decode_unknownOpcode hop⟩
  | @encodeChannelLength tail hlen =>
    match tail, hlen with
    | [], _ => exact ⟨_, rfl⟩
    | _ :: _ :: _, _ => exact ⟨_, rfl⟩
  | @toWireOrderLength tail hlen =>
    match tail, hlen with
    | [], _ => exact ⟨_, rfl⟩
    | [_], _ => exact ⟨_, rfl⟩
    | [_, _], _ => exact ⟨_, rfl⟩
    | _ :: _ :: _ :: _ :: _, _ => exact ⟨_, rfl⟩
  | parseHexLengthMissing => exact ⟨_, rfl⟩
  | parseHexLength hlen => exact ⟨_, decode_parseHex_wrongLength hlen⟩
  | countCut hlen => exact ⟨_, decode_setPixels_countCut hlen⟩
  | itemsEnd hn hw hl ht =>
    obtain ⟨e, he⟩ := takeItems_illegal hw ht hl
    rw [List.append_assoc]
    exact ⟨e, decode_setPixels_itemError hn he⟩
  | bytesAfterItems hn hw ht =>
    rw [List.append_assoc]
    exact ⟨_, decode_setPixels_bytesAfterItems hn ht (takeItems_encode hw _)⟩
  | @flushLength tail hlen =>
    match tail, hlen with
    | _ :: _, _ => exact ⟨_, rfl⟩
  | @clearAllLength tail hlen =>
    match tail, hlen with
    | _ :: _, _ => exact ⟨_, rfl⟩

/-- Settles O7: the decoder refuses the frame, and a step answers a refused frame with 0x03 alone. -/
theorem illegalFramesAnswered : Obligations.IllegalFramesAnswered := by
  intro s f rest hinbox hillegal
  obtain ⟨e, he⟩ := decode_illegalLayout hillegal
  exact step_rejects hinbox he

/-! ## Every frame is an encoding or listed as illegal -/

theorem item_or_illegal (f : Frame) :
    (∃ item rest, Item.wellFormed item = true ∧ f = item.encode ++ rest) ∨ IllegalItem f := by
  cases f with
  | nil => exact .inr .missing
  | cons tag tail =>
    by_cases h0 : tag = 0x00
    · subst h0
      match tail with
      | [] => exact .inr (.tripleCut (by simp))
      | [_] => exact .inr (.tripleCut (by simp))
      | [_, _] => exact .inr (.tripleCut (by simp))
      | r :: g :: b :: rest => exact .inl ⟨.triple ⟨r, g, b⟩, rest, rfl, rfl⟩
    by_cases h1 : tag = 0x01
    · subst h1
      match tail with
      | [] => exact .inr .hexLengthMissing
      | l :: part =>
        by_cases hl : l.toNat ≤ part.length
        · have hlen : (part.take l.toNat).length = l.toNat := List.length_take_of_le hl
          refine .inl ⟨.hex (part.take l.toNat), part.drop l.toNat, ?_, ?_⟩
          · exact decide_eq_true (by rw [hlen]; exact Nat.le_of_lt_succ l.isLt)
          · simp [Item.encode, Nat.min_eq_left hl]
        · exact .inr (.hexCut (Nat.not_le.1 hl))
    · exact .inr (.unknownTag h0 h1)

/-- Bytes hold as many items as asked for, or fewer and then what is no item. -/
theorem items_or_illegal (n : Nat) (f : Frame) : ∃ (items : List Item) (tail : Frame),
    items.all Item.wellFormed = true ∧ f = items.flatMap Item.encode ++ tail ∧
      (items.length = n ∨ items.length < n ∧ IllegalItem tail) := by
  induction n generalizing f with
  | zero => exact ⟨[], f, rfl, rfl, .inl rfl⟩
  | succ n ih =>
    obtain ⟨item, rest, hitem, rfl⟩ | hillegal := item_or_illegal f
    · obtain ⟨items, tail, hitems, rfl, hcount⟩ := ih rest
      refine ⟨item :: items, tail, Bool.and_eq_true_iff.2 ⟨hitem, hitems⟩, ?_, ?_⟩
      · rw [List.flatMap_cons, List.append_assoc]
      · exact hcount.imp (congrArg Nat.succ) (And.imp_left Nat.succ_lt_succ)
    · exact ⟨[], f, rfl, rfl, .inr ⟨Nat.succ_pos n, hillegal⟩⟩

/-- The bytes after the opcode of SET_PIXELS. -/
theorem setPixels_encoding_or_illegalLayout (tail : Frame) :
    (∃ i : Instr, i.wellFormed = true ∧ encode i = 0x10 :: tail) ∨ IllegalLayout (0x10 :: tail) := by
  by_cases hcut : tail.length < 4
  · exact .inr (.countCut hcut)
  obtain ⟨n, f, hn, rfl⟩ := exists_eq_le32Bytes_append (Nat.not_lt.1 hcut)
  obtain ⟨items, tail, hw, rfl, rfl | ⟨hl, ht⟩⟩ := items_or_illegal n f
  · rw [← List.append_assoc]
    by_cases ht : tail = []
    · subst ht
      refine .inl ⟨.setPixels items, Bool.and_eq_true_iff.2 ⟨decide_eq_true hn, hw⟩, ?_⟩
      rw [List.append_nil]
      rfl
    · exact .inr (.bytesAfterItems hn hw ht)
  · rw [← List.append_assoc]
    exact .inr (.itemsEnd hn hw hl ht)

/-- Every frame is the encoding of a well-formed command or listed as illegal. -/
theorem encoding_or_illegalLayout (f : Frame) :
    (∃ i : Instr, i.wellFormed = true ∧ encode i = f) ∨ IllegalLayout f := by
  cases f with
  | nil => exact .inr .empty
  | cons op tail =>
    by_cases hop : op ∈ [0x01, 0x02, 0x03, 0x10, 0x11, 0x12]
    · simp only [List.mem_cons, List.not_mem_nil, or_false] at hop
      obtain rfl | rfl | rfl | rfl | rfl | rfl := hop
      · match tail with
        | [b] => exact .inl ⟨.encodeChannel b, rfl, rfl⟩
        | [] => exact .inr (.encodeChannelLength (by simp))
        | _ :: _ :: _ => exact .inr (.encodeChannelLength (by simp))
      · match tail with
        | [r, g, b] => exact .inl ⟨.toWireOrder ⟨r, g, b⟩, rfl, rfl⟩
        | [] => exact .inr (.toWireOrderLength (by simp))
        | [_] => exact .inr (.toWireOrderLength (by simp))
        | [_, _] => exact .inr (.toWireOrderLength (by simp))
        | _ :: _ :: _ :: _ :: _ => exact .inr (.toWireOrderLength (by simp))
      · match tail with
        | [] => exact .inr .parseHexLengthMissing
        | l :: chars =>
          by_cases hlen : chars.length = l.toNat
          · refine .inl ⟨.parseHex chars, decide_eq_true (by rw [hlen]; exact Nat.le_of_lt_succ l.isLt), ?_⟩
            simp [encode, Instr.opcode, Instr.operandBytes, hlen]
          · exact .inr (.parseHexLength hlen)
      · exact setPixels_encoding_or_illegalLayout tail
      · match tail with
        | [] => exact .inl ⟨.flush, rfl, rfl⟩
        | _ :: _ => exact .inr (.flushLength (by simp))
      · match tail with
        | [] => exact .inl ⟨.clearAll, rfl, rfl⟩
        | _ :: _ => exact .inr (.clearAllLength (by simp))
    · exact .inr (.unknownOpcode hop)

/-- The decoder accepts exactly the encodings of well-formed commands, each as its command. -/
theorem decode_eq_ok_iff (f : Frame) (i : Instr) :
    decode f = .ok i ↔ i.wellFormed = true ∧ encode i = f := by
  constructor
  · intro h
    obtain ⟨j, hj, rfl⟩ | hillegal := encoding_or_illegalLayout f
    · obtain rfl : j = i := Except.ok.inj ((decode_encode hj).symm.trans h)
      exact ⟨hj, rfl⟩
    · obtain ⟨e, he⟩ := decode_illegalLayout hillegal
      cases he.symm.trans h
  · rintro ⟨hw, rfl⟩
    exact decode_encode hw

/-- Settles O5: the decoder accepts nothing but encodings of well-formed commands. -/
theorem decodedFrameIsEncoding : Obligations.DecodedFrameIsEncoding := fun f i => (decode_eq_ok_iff f i).1

/-- Settles O8: the decoder accepts every encoding, as one command alone, and refuses every listed frame, so no frame is
both. -/
theorem framesLegalOrListed : Obligations.FramesLegalOrListed := by
  intro f
  obtain ⟨i, hi⟩ | hillegal := encoding_or_illegalLayout f
  · have hok := (decode_eq_ok_iff f i).2 hi
    refine .inr ⟨fun hillegal => ?_, i, hi, fun j hj => ?_⟩
    · obtain ⟨e, he⟩ := decode_illegalLayout hillegal
      cases he.symm.trans hok
    · exact Except.ok.inj (((decode_eq_ok_iff f j).2 hj).symm.trans hok)
  · obtain ⟨e, he⟩ := decode_illegalLayout hillegal
    refine .inl ⟨hillegal, ?_⟩
    rintro ⟨i, hi⟩
    cases he.symm.trans ((decode_eq_ok_iff f i).2 hi)

/-- Settles O3: each written frame is the encoding of its command. -/
theorem writtenFramesDecode : Obligations.WrittenFramesDecode :=
  ⟨decode_encode (i := .encodeChannel 0x33) rfl,
    decode_encode (i := .toWireOrder ⟨0x10, 0x20, 0x30⟩) rfl,
    decode_encode (i := .parseHex [0x61, 0x30, 0x42, 0x31, 0x63, 0x32]) rfl,
    decode_encode (i := .setPixels [.triple ⟨0x33, 0, 0⟩, .hex [0x30, 0x30, 0x33, 0x33, 0x30, 0x30]]) rfl,
    decode_encode (i := .flush) rfl,
    decode_encode (i := .clearAll) rfl⟩

/-! ## The length a frame tells of itself -/

theorem itemsLength_hex (n : Nat) (l : Byte) (rest : Frame) :
    itemsLength (n + 1) (0x01 :: l :: rest) = 2 + l.toNat + itemsLength n (rest.drop l.toNat) := by
  change 2 + l.toNat + itemsLength n ((l :: rest).drop (1 + l.toNat)) = _
  rw [Nat.add_comm 1, List.drop_succ_cons]

/-- The first item counts its own bytes, whatever follows. -/
theorem itemsLength_encode_append {item : Item} (h : item.wellFormed = true) (n : Nat) (rest : Frame) :
    itemsLength (n + 1) (item.encode ++ rest) = item.encode.length + itemsLength n rest := by
  cases item with
  | triple c => rfl
  | hex chars =>
    refine (itemsLength_hex n _ (chars ++ rest)).trans ?_
    rw [toNat_lengthByte (of_decide_eq_true h), List.drop_left, Nat.add_comm 2]
    rfl

theorem itemsLength_flatMap_encode {items : List Item} (h : items.all Item.wellFormed = true) :
    itemsLength items.length (items.flatMap Item.encode) = (items.flatMap Item.encode).length := by
  induction items with
  | nil => rfl
  | cons item items ih =>
    obtain ⟨hitem, hitems⟩ := Bool.and_eq_true_iff.1 h
    rw [List.length_cons, List.flatMap_cons, itemsLength_encode_append hitem, ih hitems, List.length_append]

theorem frameLength_setPixels {n : Nat} (h : n ≤ 4294967295) (rest : Frame) :
    frameLength (0x10 :: (le32Bytes n ++ rest)) = 5 + itemsLength n rest :=
  congrArg (5 + itemsLength · rest) (le32_ofNat h)

theorem frameLength_encode {i : Instr} (h : i.wellFormed = true) : frameLength (encode i) = (encode i).length := by
  cases i with
  | encodeChannel b => rfl
  | toWireOrder c => rfl
  | parseHex chars =>
    change 2 + (BitVec.ofNat 8 chars.length).toNat = chars.length + 2
    rw [toNat_lengthByte (of_decide_eq_true h), Nat.add_comm]
  | setPixels items =>
    obtain ⟨hlen, hitems⟩ := Bool.and_eq_true_iff.1 h
    refine (frameLength_setPixels (of_decide_eq_true hlen) _).trans ?_
    rw [itemsLength_flatMap_encode hitems]
    simp only [encode, Instr.operandBytes, le32Bytes, List.length_cons, List.length_append, List.length_nil]
    omega
  | flush => rfl
  | clearAll => rfl

/-- Settles O6: a legal frame is an encoding, and an encoding has the length its bytes tell. -/
theorem legalFrameLength : Obligations.LegalFrameLength := by
  intro f i hdecode
  obtain ⟨hw, rfl⟩ := (decode_eq_ok_iff f i).1 hdecode
  exact (frameLength_encode hw).symm

end Sys2Proof.Machine

/-! The block between two commands (10_state.md R36, R37; 70_reset_and_hazards.md R220 to R222): construction, the
invariant it establishes and every step keeps, and a run over all waiting frames. -/

namespace Sys2Proof.Machine

/-! ## The state after a command and after a step -/

/-- `exec_cases` of a given next state. -/
theorem exec_next_cases {i : Instr} {s t : State} (h : exec i s = .next t) :
    (∃ r, ResponseAllowed i r ∧ r ≠ [0x00] ∧ r ≠ [0x02] ∧ t = s.afterResponse r) ∨
    (∃ p, Sends s i p ∧ t = s.afterTransfer p) := by
  obtain ⟨r, hallowed, hok, hbus, hr⟩ | ⟨p, hsends, hp⟩ := exec_cases i s
  · exact .inl ⟨r, hallowed, hok, hbus, Host.Outcome.next.inj (h.symm.trans hr)⟩
  · exact .inr ⟨p, hsends, Host.Outcome.next.inj (h.symm.trans hp)⟩

/-- `step_cases` of a given next state. -/
theorem step_next_cases {s t : State} (h : step s = .next t) :
    t = s ∨ (∃ rest, t = State.afterResponse { s with inbox := rest } [0x03]) ∨
    (∃ rest i, exec i { s with inbox := rest } = .next t) := by
  obtain ⟨-, hidle⟩ | ⟨f, rest, e, -, -, hrej⟩ | ⟨f, rest, i, -, -, hrun⟩ := step_cases s
  · exact .inl (Host.Outcome.next.inj (h.symm.trans hidle))
  · exact .inr (.inl ⟨rest, Host.Outcome.next.inj (h.symm.trans hrej)⟩)
  · exact .inr (.inr ⟨rest, i, hrun.symm.trans h⟩)

/-! ## Construction -/

theorem wireOrderOfCode_eq_some_iff (code : BitVec 6) (o : WireOrder) :
    wireOrderOfCode code = some o ↔ wireOrderCode o = code := by
  constructor
  · intro h
    exact beq_iff_eq.1 (List.find?_some (p := fun o => wireOrderCode o == code) h)
  · rintro rfl
    cases o <;> rfl

theorem map_wireOrderCode : [WireOrder.rgb, .rbg, .grb, .gbr, .brg, .bgr].map wireOrderCode =
    [0x24#6, 0x18#6, 0x21#6, 0x09#6, 0x12#6, 0x06#6] := rfl

/-- A code names no wire order exactly when it is none of the six. -/
theorem wireOrderOfCode_eq_none_iff (code : BitVec 6) :
    wireOrderOfCode code = none ↔ code ∉ [0x24#6, 0x18#6, 0x21#6, 0x09#6, 0x12#6, 0x06#6] := by
  rw [← map_wireOrderCode, wireOrderOfCode, List.find?_eq_none, List.mem_map]
  simp only [beq_iff_eq, not_exists, not_and]

/-- Settles O19: the table is read off, and the search finds an order by its code. -/
theorem wireOrderField : Obligations.WireOrderField := ⟨map_wireOrderCode, wireOrderOfCode_eq_some_iff⟩

section
variable {numLeds : Nat} {code : BitVec 6} {capacity : Option Nat} {post : PostFailBuffer}

/-- What a construction that is not refused answers, and when it is not. -/
theorem construct_eq_ok_iff (s : State) : construct numLeds code capacity post = .ok s ↔
    ∃ o, wireOrderCode o = code ∧ CountFits ⟨numLeds, o, capacity, post⟩ numLeds ∧
      s = State.ofConfig ⟨numLeds, o, capacity, post⟩ := by
  simp only [← wireOrderOfCode_eq_some_iff, ← overflows_eq_false_iff]
  cases ho : wireOrderOfCode code with
  | none => simp [construct, ho]
  | some o =>
    cases hc : overflows capacity numLeds with
    | true => simp [construct, ho, hc]
    | false => simp [construct, ho, hc, eq_comm]

theorem construct_eq_error_iff : (∃ e, construct numLeds code capacity post = .error e) ↔
    wireOrderOfCode code = none ∨ overflows capacity numLeds = true := by
  cases ho : wireOrderOfCode code with
  | none => simp [construct, ho]
  | some o =>
    cases hc : overflows capacity numLeds with
    | true => simp [construct, ho, hc]
    | false => simp [construct, ho, hc]

end

/-- Settles O43: the two refusals are the code that names no order and the capacity the panel exceeds. -/
theorem constructionRefused : Obligations.ConstructionRefused := by
  intro numLeds code capacity post
  constructor
  · rw [construct_eq_error_iff, wireOrderOfCode_eq_none_iff, overflows_eq_true_iff]
  · intro s hs
    obtain ⟨o, hcode, -, rfl⟩ := (construct_eq_ok_iff s).1 hs
    exact ⟨rfl, rfl, rfl, hcode, rfl, rfl⟩

/-- Settles O42: every field by its reset value, and an empty inbox idles. -/
theorem resetLeavesBlockIdle : Obligations.ResetLeavesBlockIdle :=
  ⟨rfl, rfl, rfl, rfl, rfl, rfl, rfl, step_idle rfl⟩

/-! ## The invariant -/

theorem fitsCapacity_nil (c : BlockConfig) : FitsCapacity c [] := fun _ _ => Nat.zero_le _

/-- An empty block meets the invariant once its configuration admits its panel. -/
theorem inv_ofConfig {c : BlockConfig} (h : CountFits c c.numLeds) : (State.ofConfig c).Inv where
  constructible := h
  pixels := ⟨isPixelData_nil, fun _ he => absurd he List.not_mem_nil⟩
  fits := ⟨fitsCapacity_nil c, fun _ he => absurd he List.not_mem_nil⟩
  atRest := .inl rfl

/-- Settles O44: construction checks the capacity the invariant asks for; the reference buffer has no bound. -/
theorem constructionMeetsInvariant : Obligations.ConstructionMeetsInvariant := by
  refine ⟨inv_ofConfig fun n hn => (nomatch hn), fun numLeds code capacity post s hs => ?_⟩
  obtain ⟨o, -, hfits, rfl⟩ := (construct_eq_ok_iff s).1 hs
  exact inv_ofConfig hfits

/-- The invariant speaks of the configuration, the buffer and the history alone. -/
theorem State.Inv.congr {s t : State} (h : s.Inv) (hc : t.config = s.config) (hf : t.fb = s.fb)
    (hh : t.hist = s.hist) : t.Inv where
  constructible := by rw [hc]; exact h.constructible
  pixels := by rw [hf, hh]; exact h.pixels
  fits := by rw [hc, hf, hh]; exact h.fits
  atRest := by rw [hc, hf, hh]; exact h.atRest

/-- What a transfer leaves in the buffer has every property of its payload that the empty buffer has too. -/
theorem leftAfter_induction {P : List Byte → Prop} (hnil : P []) {p : List Byte} (hp : P p) (c : BlockConfig)
    (a : SinkAnswer) : P (leftAfter c p a) := by
  obtain h | ⟨h, -, -⟩ := leftAfter_cases c p a
  · rwa [h]
  · rwa [h]

/-- A transfer of whole colours that fit keeps the invariant: what it leaves in the buffer is nothing, or its payload
where it is the failed transfer a RETAINED buffer may hold. -/
theorem inv_afterTransfer {s : State} {p : List Byte} (h : s.Inv) (hpix : IsPixelData p)
    (hfit : FitsCapacity s.config p) : (s.afterTransfer p).Inv where
  constructible := h.constructible
  pixels := ⟨leftAfter_induction isPixelData_nil hpix _ _,
    List.forall_mem_append.2 ⟨h.pixels.2, List.forall_mem_singleton.2 hpix⟩⟩
  fits := ⟨leftAfter_induction (fitsCapacity_nil _) hfit _ _,
    List.forall_mem_append.2 ⟨h.fits.2, List.forall_mem_singleton.2 hfit⟩⟩
  atRest := by
    rw [afterTransfer_fb, afterTransfer_hist]
    obtain hnil | ⟨hp, hret, hfail⟩ := leftAfter_cases s.config p (nextAnswer s)
    · exact .inl hnil
    · exact .inr ⟨hret, by rw [hp, hfail, List.getLast?_concat]⟩

theorem fitsCapacity_flatMap_pixelGroup {c : BlockConfig} {cs : List Color} (h : CountFits c cs.length)
    (o : WireOrder) : FitsCapacity c (cs.flatMap (pixelGroup o)) := by
  intro n hn
  rw [length_flatMap_pixelGroup]
  exact h n hn

/-- Whatever a command of a block that meets the invariant sends is whole colours and fits. -/
theorem sends_pixelData_fits {s : State} {i : Instr} {p : List Byte} (h : s.Inv) (hp : Sends s i p) :
    IsPixelData p ∧ FitsCapacity s.config p := by
  cases hp with
  | setPixels hcs hfit => exact ⟨isPixelData_flatMap_pixelGroup _ _, fitsCapacity_flatMap_pixelGroup hfit _⟩
  | flush => exact ⟨h.pixels.1, h.fits.1⟩
  | clearAll =>
    refine ⟨isPixelData_flatMap_pixelGroup _ _, fitsCapacity_flatMap_pixelGroup ?_ _⟩
    rw [List.length_replicate]
    exact h.constructible

theorem exec_keeps_inv {i : Instr} {s t : State} (h : s.Inv) (hexec : exec i s = .next t) : t.Inv := by
  obtain ⟨r, -, -, -, rfl⟩ | ⟨p, hsends, rfl⟩ := exec_next_cases hexec
  · exact h.congr rfl rfl rfl
  · obtain ⟨hpix, hfit⟩ := sends_pixelData_fits h hsends
    exact inv_afterTransfer h hpix hfit

/-- Settles O45: idling, taking a frame and answering leave what the invariant speaks of, and a command keeps it. -/
theorem stepKeepsInvariant : Obligations.StepKeepsInvariant := by
  intro s t h hstep
  obtain rfl | ⟨rest, rfl⟩ | ⟨rest, i, hexec⟩ := step_next_cases hstep
  · exact h
  · exact h.congr rfl rfl rfl
  · exact exec_keeps_inv (s := { s with inbox := rest }) (h.congr rfl rfl rfl) hexec

/-! ## Steps and runs -/

/-- Settles O1: the rule of a step on a frame that decodes. -/
theorem stepRunsDecodedCommand : Obligations.StepRunsDecodedCommand := fun _ _ _ _ hinbox hdecode _ =>
  step_runs hinbox hdecode

/-- Settles O2: the rule of an idle step. -/
theorem emptyInboxStaysIdle : Obligations.EmptyInboxStaysIdle := fun _ => step_idle

theorem exec_config {i : Instr} {s t : State} (hexec : exec i s = .next t) : t.config = s.config := by
  obtain ⟨r, -, -, -, rfl⟩ | ⟨p, -, rfl⟩ := exec_next_cases hexec
  · rfl
  · rfl

/-- Settles O38: no command writes the configuration, and neither does a step around it. -/
theorem configurationImmutable : Obligations.ConfigurationImmutable := by
  intro s t hstep
  obtain rfl | ⟨rest, rfl⟩ | ⟨rest, i, hexec⟩ := step_next_cases hstep
  · rfl
  · rfl
  · exact (exec_config hexec).trans rfl

/-- The responses of a transfer are of the shapes its command allows. -/
theorem responseAllowed_of_sends {i : Instr} {s : State} {p : List Byte} (h : Sends s i p) (a : SinkAnswer) :
    ResponseAllowed i (transferResponse a) := by
  cases a with
  | ok => cases h <;> exact .inl ⟨[], rfl, rfl⟩
  | fail => cases h <;> exact .inr ⟨.busTransferError, by simp [errorsOf], rfl⟩

/-- Every command answers a next state with one response more, of a shape it allows, and the same inbox. -/
theorem exec_responds (i : Instr) (s : State) : ∃ t r, exec i s = .next t ∧ t.inbox = s.inbox ∧
    t.responses = s.responses ++ [r] ∧ ResponseAllowed i r := by
  obtain ⟨r, hallowed, -, -, hr⟩ | ⟨p, hsends, hp⟩ := exec_cases i s
  · exact ⟨_, r, hr, rfl, rfl, hallowed⟩
  · exact ⟨_, _, hp, rfl, rfl, responseAllowed_of_sends hsends _⟩

/-- Settles O9: the decoder decides whether the frame is rejected or its command responds. -/
theorem oneResponsePerFrame : Obligations.OneResponsePerFrame := by
  intro s f rest hinbox
  cases hd : decode f with
  | error e =>
    exact ⟨_, [0x03], step_rejects hinbox hd, rfl, rfl, fun i hi => (nomatch hi), fun _ _ => rfl⟩
  | ok i =>
    obtain ⟨t, r, hexec, hin, hresp, hallowed⟩ := exec_responds i { s with inbox := rest }
    refine ⟨t, r, (step_runs hinbox hd).trans hexec, hin, hresp, fun j hj => ?_, fun e he => (nomatch he)⟩
    rwa [← Except.ok.inj hj]

/-- One frame of a run: answered, at most one transfer made, the invariant kept. -/
theorem step_answers_frame {s : State} {f : Frame} {rest : List Frame} (hinbox : s.inbox = f :: rest) (h : s.Inv) :
    ∃ t, step s = .next t ∧ t.inbox = rest ∧ t.responses.length = s.responses.length + 1 ∧
      t.hist.length ≤ s.hist.length + 1 ∧ t.config = s.config ∧ t.Inv := by
  obtain ⟨t, r, hstep, hin, hresp, -⟩ := oneResponsePerFrame s f rest hinbox
  obtain ⟨events, hlen, hhist, -⟩ := historyWrittenOnly.1 s t [] hstep
  refine ⟨t, hstep, hin, ?_, ?_, configurationImmutable s t hstep, stepKeepsInvariant s t h hstep⟩
  · rw [hresp, List.length_append, List.length_singleton]
  · rw [hhist, List.length_append]
    omega

/-- A run goes on from the next state of its first step. -/
theorem run_succ {M : Host.Core} {s t : M.State} (h : M.step s = .next t) (n : Nat) :
    M.run (n + 1) s = M.run n t := by
  rw [Host.Core.run, h]

/-- Settles O46: by induction on the waiting frames, a step for each. -/
theorem everyFrameRunAnswered : Obligations.EveryFrameRunAnswered := by
  intro s hinv
  generalize hinbox : s.inbox = frames
  induction frames generalizing s with
  | nil => exact ⟨s, rfl, hinbox, rfl, le_rfl, rfl, hinv⟩
  | cons f rest ih =>
    obtain ⟨t, hstep, hin, hresp, hhist, hconfig, htinv⟩ := step_answers_frame hinbox hinv
    obtain ⟨u, hrun, huin, huresp, huhist, huconfig, huinv⟩ := ih t htinv hin
    refine ⟨u, (run_succ (M := core) hstep rest.length).trans hrun, huin, ?_, ?_, huconfig.trans hconfig, huinv⟩
    · rw [huresp, hresp, List.length_cons]
      omega
    · rw [List.length_cons]
      omega

end Sys2Proof.Machine

/-! The colour input (41_reorder_and_color_input.md): what TO_WIRE_ORDER, PARSE_HEX and the normalised items of
SET_PIXELS give. -/

namespace Sys2Proof.Machine

/-- The three slots name each channel once (R92). -/
theorem slots_perm (o : WireOrder) :
    [(slots o).1, (slots o).2.1, (slots o).2.2].Perm [Channel.red, .green, .blue] := by
  cases o <;> decide

/-- Settles O18: the answer picks a channel's byte for each slot, and the slots permute the channels. -/
theorem toWireOrderPermutes : Obligations.ToWireOrderPermutes := fun c s =>
  ⟨_, _, _, exec_toWireOrder c s, (slots_perm s.config.wireOrder).map (pick · c)⟩

/-- Settles O20: the parser gives the colour the digits name. -/
theorem parseHexResult : Obligations.ParseHexResult := fun s chars c h =>
  execParseHex_good ((parseColor_eq_some_iff chars c).2 h) s

/-- SET_PIXELS reads its items through their colours alone. -/
theorem exec_setPixels_congr {items items' : List Item} (h : normalizeAll items = normalizeAll items') (s : State) :
    exec (.setPixels items) s = exec (.setPixels items') s := by
  simp only [exec, execSetPixels, h]

/-- Settles O22: both lists are normalised to the same colours. -/
theorem itemFormsAgree : Obligations.ItemFormsAgree := by
  intro s items items' cs h h'
  rw [← normalizeAll_eq_some_iff] at h h'
  exact exec_setPixels_congr (h.trans h'.symm) s

end Sys2Proof.Machine

/-! The Panel Controller (42_panel_controller.md): SET_PIXELS, FLUSH and CLEAR_ALL as transfers of a known payload, and
what a transfer leaves behind. -/

namespace Sys2Proof.Machine

/-! ## What a transfer leaves in the buffer -/

theorem leftAfter_drained {c : BlockConfig} (h : c.postFailBuffer = .drained) (p : List Byte) (a : SinkAnswer) :
    leftAfter c p a = [] := by
  rw [leftAfter_eq_ite, h]
  exact if_neg fun hret => (nomatch hret.2)

theorem leftAfter_retained {c : BlockConfig} (h : c.postFailBuffer = .retained) (p : List Byte) :
    leftAfter c p .fail = p := by
  rw [leftAfter_eq_ite]
  exact if_pos ⟨rfl, h⟩

theorem transferResponse_eq_ok_iff (a : SinkAnswer) : transferResponse a = [0x00] ↔ a = .ok := by
  cases a <;> decide

/-! ## SET_PIXELS -/

/-- Settles O23: the colours that fit are a payload of the command, which it transfers. -/
theorem setPixelsSends : Obligations.SetPixelsSends := fun _ _ _ hcs hfit => exec_of_sends (.setPixels hcs hfit)

/-- Settles O25: the capacity check of phase 2 refuses the batch. -/
theorem setPixelsOverflow : Obligations.SetPixelsOverflow := fun _ items cs n hcs hcap hlt =>
  execSetPixels_overflow ((normalizeAll_eq_some_iff items cs).2 hcs) ((overflows_eq_true_iff _ _).2 ⟨n, hcap, hlt⟩)

/-- Settles O26: the payload is that of the colours, and the buffer is overwritten by what the transfer leaves. -/
theorem staleBytesDiscarded : Obligations.StaleBytesDiscarded := by
  intro s stale items cs hcs hfit
  have hstale : exec (.setPixels items) { s with fb := stale } = _ := setPixelsSends _ items cs hcs hfit
  rw [hstale, setPixelsSends s items cs hcs hfit]
  rfl

/-! ## FLUSH -/

/-- Settles O28: FLUSH transfers the buffer, and the answer and the policy settle what stays and what is answered. -/
theorem flushResult : Obligations.FlushResult := by
  intro s
  have hflush : exec .flush s = .next (s.afterTransfer s.fb) := execFlush_sends s
  rw [hflush]
  refine ⟨fun hok => ?_, fun hfail hdrained => ?_, fun hfail hretained => ?_⟩
  · simp only [State.afterTransfer, hok, leftAfter, transferResponse]
  · simp only [State.afterTransfer, hfail, leftAfter_drained hdrained, transferResponse]
  · simp only [State.afterTransfer, hfail, leftAfter_retained hretained, transferResponse]

/-- Reading every index in order reads the buffer. -/
theorem map_memRead_range (s : State) : (List.range s.fb.length).map (fun i => memRead i s) = s.fb.map .ok := by
  apply List.ext_getElem
  · simp
  · intro i hi _
    rw [List.length_map, List.length_range] at hi
    simp only [List.getElem_map, List.getElem_range, memRead_inside hi]

/-- Settles O29: the payload is the buffer, which is what the reads give. -/
theorem flushReadsWholeBuffer : Obligations.FlushReadsWholeBuffer := fun s =>
  ⟨_, s.fb, execFlush_sends s, afterTransfer_hist s s.fb, map_memRead_range s⟩

/-! ## CLEAR_ALL -/

/-- Settles O31: the payload is a function of NUM_LEDS, and the transfer reads neither the order nor the buffer. -/
theorem clearAllIgnoresOrderAndStale : Obligations.ClearAllIgnoresOrderAndStale := by
  intro s t o stale hexec
  obtain rfl := Host.Outcome.next.inj ((exec_clearAll_dark s).symm.trans hexec)
  exact exec_clearAll_dark _

/-- Settles O32: the function of NUM_LEDS is the encoding of 0 three times per LED. -/
theorem clearAllRepeats : Obligations.ClearAllRepeats :=
  ⟨fun n => (List.replicate (3 * n) (encChannel 0)).flatten, fun s =>
    ⟨_, _, exec_clearAll_dark s, exec_clearAll_dark _, afterTransfer_hist s _, afterTransfer_hist _ _⟩⟩

/-! ## After a failure and after a success -/

/-- A command that recorded a transfer ends as a transfer of that payload. -/
theorem eq_afterTransfer_of_hist {i : Instr} {s t : State} {payload : List Byte} {a : SinkAnswer}
    (hexec : exec i s = .next t) (hhist : t.hist = s.hist ++ [⟨payload, a⟩]) :
    nextAnswer s = a ∧ t = s.afterTransfer payload := by
  obtain ⟨r, -, -, -, rfl⟩ | ⟨p, -, rfl⟩ := exec_next_cases hexec
  · exact absurd (List.self_eq_append_right.1 hhist) (List.cons_ne_nil _ _)
  · have hevent := List.singleton_inj.1 (List.append_cancel_left hhist)
    obtain ⟨rfl, hanswer⟩ := TransferEvent.mk.inj hevent
    exact ⟨hanswer, rfl⟩

/-- Settles O34: FLUSH sends what the failed transfer left, its payload under RETAINED and nothing under DRAINED. -/
theorem flushAfterFailure : Obligations.FlushAfterFailure := by
  intro s t i payload _ hexec hhist
  obtain ⟨hfail, rfl⟩ := eq_afterTransfer_of_hist hexec hhist
  refine ⟨_, execFlush_sends _, fun hretained => ?_, fun hdrained => ?_⟩
  · rw [afterTransfer_hist, afterTransfer_fb, hfail, leftAfter_retained hretained]
  · rw [afterTransfer_hist, afterTransfer_fb, leftAfter_drained hdrained]

theorem exec_keeps_empty_of_drained {i : Instr} {s t : State} (hdrained : s.config.postFailBuffer = .drained)
    (hempty : s.fb = []) (hexec : exec i s = .next t) : t.fb = [] := by
  obtain ⟨r, -, -, -, rfl⟩ | ⟨p, -, rfl⟩ := exec_next_cases hexec
  · exact hempty
  · exact leftAfter_drained hdrained p _

/-- Settles O35: only a transfer with success answers the bare 0x00, and it leaves nothing; under DRAINED no transfer
leaves anything. -/
theorem bufferEmptyAtRest : Obligations.BufferEmptyAtRest := by
  refine ⟨fun s t i hexec hresp => ?_, fun s t hdrained hempty hstep => ?_⟩
  · obtain ⟨r, -, hne, -, hr⟩ | ⟨p, -, rfl⟩ := exec_next_cases hexec
    · exact absurd (exec_response_unique hexec hresp (hexec.trans (congrArg _ hr)) rfl) hne
    · have hok : nextAnswer s = .ok := (transferResponse_eq_ok_iff _).1 (exec_response_unique hexec hresp hexec rfl)
      rw [afterTransfer_fb, hok, leftAfter]
  · obtain rfl | ⟨rest, rfl⟩ | ⟨rest, i, hexec⟩ := step_next_cases hstep
    · exact hempty
    · exact hempty
    · exact exec_keeps_empty_of_drained (s := { s with inbox := rest }) hdrained hempty hexec

end Sys2Proof.Machine

/-! What commands and primitives leave alone (10_state.md sections 2 and 3, 20_memory.md sections 1 and 3). -/

namespace Sys2Proof.Machine

/-- Settles O36: a query has no payload, so it only responds. -/
theorem queriesChangeNothing : Obligations.QueriesChangeNothing := by
  intro s t i hquery hexec
  obtain ⟨r, -, -, -, rfl⟩ | ⟨p, hsends, -⟩ := exec_next_cases hexec
  · exact ⟨⟨r, rfl⟩, memRead_congr (afterResponse_fb s r)⟩
  · obtain ⟨b, rfl⟩ | ⟨c, rfl⟩ | ⟨chars, rfl⟩ := hquery <;> cases hsends

/-- Settles O37: a panel command responds alone, or transfers, and a transfer leaves nothing or its payload. -/
theorem panelCommandsFrame : Obligations.PanelCommandsFrame := by
  intro s t i _ hexec
  obtain ⟨r, -, -, -, rfl⟩ | ⟨p, -, rfl⟩ := exec_next_cases hexec
  · exact ⟨rfl, rfl, ⟨r, rfl⟩, .inl ⟨rfl, rfl, rfl, memRead_congr (afterResponse_fb s r)⟩⟩
  · exact ⟨rfl, rfl, ⟨_, rfl⟩, .inr ⟨p, rfl, rfl, rfl, leftAfter_cases s.config p (nextAnswer s)⟩⟩

/-! ## NUM_LEDS -/

/-- The same block with another NUM_LEDS. -/
def State.withNumLeds (s : State) (n : Nat) : State := { s with config := { s.config with numLeds := n } }

/-- But for CLEAR_ALL, a command settles its response and its payload without reading NUM_LEDS. -/
theorem exec_withNumLeds {i : Instr} (hi : i ≠ .clearAll) (s : State) :
    ∃ t : State, ∀ n, exec i (s.withNumLeds n) = .next (t.withNumLeds n) := by
  cases i with
  | encodeChannel b =>
    exact ⟨s.afterResponse (0x00 :: encChannel b), fun n => exec_encodeChannel b (s.withNumLeds n)⟩
  | toWireOrder c =>
    exact ⟨s.afterResponse (0x00 :: wireBytes s.config.wireOrder c), fun n => exec_toWireOrder c (s.withNumLeds n)⟩
  | parseHex chars =>
    cases hp : parseColor chars with
    | none => exact ⟨s.afterResponse [0x01], fun n => execParseHex_malformed hp (s.withNumLeds n)⟩
    | some c => exact ⟨s.afterResponse [0x00, c.r, c.g, c.b], fun n => execParseHex_good hp (s.withNumLeds n)⟩
  | setPixels items =>
    cases hn : normalizeAll items with
    | none => exact ⟨s.afterResponse [0x01], fun n => execSetPixels_malformed hn (s.withNumLeds n)⟩
    | some cs =>
      cases ho : overflows s.config.fbCapacity cs.length with
      | true => exact ⟨s.afterResponse [0x04], fun n => execSetPixels_overflow (s := s.withNumLeds n) hn ho⟩
      | false =>
        exact ⟨s.afterTransfer (cs.flatMap (pixelGroup s.config.wireOrder)),
          fun n => execSetPixels_sends (s := s.withNumLeds n) hn ho⟩
  | flush => exact ⟨s.afterTransfer s.fb, fun n => execFlush_sends (s.withNumLeds n)⟩
  | clearAll => exact absurd rfl hi

/-- Settles O40: the command runs alike for every NUM_LEDS, so also for the one the block has. -/
theorem numLedsReadByClearAllOnly : Obligations.NumLedsReadByClearAllOnly := by
  intro s t i n hi hexec
  obtain ⟨u, hu⟩ := exec_withNumLeds hi s
  obtain rfl := Host.Outcome.next.inj ((hu s.config.numLeds).symm.trans hexec)
  exact hu n

/-! ## The Frame Buffer primitives -/

theorem memRead_fbPush_length (v : Byte) (s : State) : memRead s.fb.length (fbPush v s) = .ok v := by
  simp [memRead]

theorem memRead_fbPush_below {index : Nat} {s : State} (h : index < s.fb.length) (v : Byte) :
    memRead index (fbPush v s) = memRead index s := by
  simp [memRead, List.getElem?_append_left h]

/-- Settles O41: the admitted write is a push, and every other access faults. -/
theorem writesAreAppends : Obligations.WritesAreAppends := fun s v =>
  ⟨⟨fbPush v s, memWrite_at_length v s, memRead_fbPush_length v s, by simp, fun _ h => memRead_fbPush_below h v,
      rfl⟩,
    fun _ => memWrite_elsewhere, fun _ => memRead_outside⟩

end Sys2Proof.Machine

/-! The 24-bit word of a channel encoding (30_encoding.md section A.3, 40_symbol_encoder.md): which bits it has, and the
closed forms, the range and the inverse that follow. -/

namespace Sys2Proof.Machine

/-! ## Bits of a packed byte -/

theorem testBit_bitsValue (bits : List Bool) (i : Nat) : (bitsValue bits).testBit i = bits.getD i false := by
  induction bits generalizing i with
  | nil => simp [bitsValue]
  | cons x xs ih =>
    have hx := x.toNat_le
    cases i with
    | zero => cases x <;> simp [bitsValue, Nat.testBit_zero, Nat.add_mod]
    | succ i =>
      rw [bitsValue, Nat.testBit_succ, show (x.toNat + 2 * bitsValue xs) / 2 = bitsValue xs by omega, ih,
        List.getD_cons_succ]

/-- Bit `i` of a packed byte is element `i` of the list. -/
theorem getLsbD_packByte (bits : List Bool) {i : Nat} (hi : i < 8) :
    (packByte bits).getLsbD i = bits.getD i false := by
  rw [packByte, BitVec.getLsbD_ofNat, testBit_bitsValue, decide_eq_true hi, Bool.true_and]
  simp only [List.getD_eq_getElem?_getD, List.getElem?_take_of_lt hi]

/-! ## Words by their symbols -/

/-- The places of a 24-bit word are the three of each of eight symbols. -/
theorem forall_lt_24_iff {P : Nat → Prop} :
    (∀ i < 24, P i) ↔ ∀ k < 8, P (3 * k) ∧ P (3 * k + 1) ∧ P (3 * k + 2) := by
  constructor
  · intro h k hk
    exact ⟨h _ (by omega), h _ (by omega), h _ (by omega)⟩
  · intro h i hi
    obtain ⟨h0, h1, h2⟩ := h (i / 3) (by omega)
    obtain hr | hr | hr : i = 3 * (i / 3) ∨ i = 3 * (i / 3) + 1 ∨ i = 3 * (i / 3) + 2 := by omega
    · rwa [hr]
    · rwa [hr]
    · rwa [hr]

theorem word24_eq_iff (v w : BitVec 24) : v = w ↔ ∀ k < 8, v.getLsbD (3 * k) = w.getLsbD (3 * k) ∧
    v.getLsbD (3 * k + 1) = w.getLsbD (3 * k + 1) ∧ v.getLsbD (3 * k + 2) = w.getLsbD (3 * k + 2) := by
  rw [← forall_lt_24_iff (P := fun i => v.getLsbD i = w.getLsbD i)]
  exact ⟨fun h _ _ => by rw [h], BitVec.eq_of_getLsbD_eq⟩

theorem word24_inj {a0 a1 a2 b0 b1 b2 : Byte} (h : a2 ++ a1 ++ a0 = b2 ++ b1 ++ b0) :
    [a0, a1, a2] = [b0, b1, b2] := by
  have hbit (i : Nat) := congrArg (fun w : BitVec 24 => w.getLsbD i) h
  simp only [getLsbD_word24] at hbit
  have h0 : a0 = b0 := BitVec.eq_of_getLsbD_eq fun i hi => by simpa [hi] using hbit i
  have h1 : a1 = b1 := BitVec.eq_of_getLsbD_eq fun i hi => by
    simpa [show ¬ i + 8 < 8 by omega, show i + 8 < 16 by omega] using hbit (i + 8)
  have h2 : a2 = b2 := BitVec.eq_of_getLsbD_eq fun i hi => by
    simpa [show ¬ i + 16 < 8 by omega, show ¬ i + 16 < 16 by omega] using hbit (i + 16)
  rw [h0, h1, h2]

/-! ## The word of an encoding -/

/-- The encoding of a byte as one little-endian word. -/
def encWord (b : Byte) : BitVec 24 :=
  packByte ((symbolSequence b).drop 16) ++ packByte ((symbolSequence b).drop 8) ++ packByte (symbolSequence b)

/-- Bit `i` of the word is symbol bit `i`. -/
theorem getLsbD_encWord (b : Byte) {i : Nat} (hi : i < 24) : (encWord b).getLsbD i = symbolBit b i := by
  rw [encWord, getLsbD_word24]
  split_ifs with h8 h16
  · exact getLsbD_packByte _ h8
  · rw [getLsbD_packByte _ (by omega), symbolBit, List.getD_eq_getElem?_getD, List.getElem?_drop,
      show 8 + (i - 8) = i by omega, List.getD_eq_getElem?_getD]
  · rw [getLsbD_packByte _ (by omega), symbolBit, List.getD_eq_getElem?_getD, List.getElem?_drop,
      show 16 + (i - 16) = i by omega, List.getD_eq_getElem?_getD]

/-- Symbol `k` of the word is `(0, bit k, 1)`. -/
theorem encWord_symbol (b : Byte) {k : Nat} (hk : k < 8) : (encWord b).getLsbD (3 * k) = false ∧
    (encWord b).getLsbD (3 * k + 1) = b.getLsbD k ∧ (encWord b).getLsbD (3 * k + 2) = true := by
  rw [getLsbD_encWord b (by omega), getLsbD_encWord b (by omega), getLsbD_encWord b (by omega)]
  exact symbolBit_of_sourceBit b hk

theorem encChannel_eq_iff_encWord (b b0 b1 b2 : Byte) :
    encChannel b = [b0, b1, b2] ↔ encWord b = b2 ++ b1 ++ b0 := by
  constructor
  · intro h
    simp only [encChannel, List.cons.injEq, and_true] at h
    obtain ⟨rfl, rfl, rfl⟩ := h
    rfl
  · exact word24_inj

/-- The response of ENCODE_CHANNEL, as the three bytes of the word. -/
theorem exec_encodeChannel_encWord (b : Byte) (s : State) : ∃ b0 b1 b2 : Byte, b2 ++ b1 ++ b0 = encWord b ∧
    exec (.encodeChannel b) s = .next { s with responses := s.responses ++ [[0x00, b0, b1, b2]] } :=
  ⟨_, _, _, rfl, exec_encodeChannel b s⟩

/-! ## Duty cycle -/

/-- Settles O16: of a symbol's three places the first is low, the last high. -/
theorem symbolDutyCycle : Obligations.SymbolDutyCycle := by
  intro b s
  obtain ⟨b0, b1, b2, hword, hexec⟩ := exec_encodeChannel_encWord b s
  refine ⟨b0, b1, b2, hexec, fun k hk => ?_⟩
  obtain ⟨hlow, hbit, hhigh⟩ := encWord_symbol b hk
  rw [hword]
  cases hb : b.getLsbD k <;> simp [List.range_succ, hlow, hbit, hhigh, hb]

/-! ## Range and inverse -/

theorem highMask_symbol : ∀ k < 8, (0x924924#24).getLsbD (3 * k) = false ∧
    (0x924924#24).getLsbD (3 * k + 1) = false ∧ (0x924924#24).getLsbD (3 * k + 2) = true := by decide

theorem lowMask_symbol : ∀ k < 8, (0x249249#24).getLsbD (3 * k) = true ∧
    (0x249249#24).getLsbD (3 * k + 1) = false ∧ (0x249249#24).getLsbD (3 * k + 2) = false := by decide

/-- The first mask asks for the trailing high of every symbol. -/
theorem and_highMask_iff (w : BitVec 24) :
    w &&& 0x924924#24 = 0x924924#24 ↔ ∀ k < 8, w.getLsbD (3 * k + 2) = true := by
  rw [word24_eq_iff]
  refine forall₂_congr fun k hk => ?_
  obtain ⟨h0, h1, h2⟩ := highMask_symbol k hk
  simp only [BitVec.getLsbD_and, h0, h1, h2, Bool.and_false, Bool.and_true, true_and]

/-- The second mask asks for the leading low of every symbol. -/
theorem and_lowMask_iff (w : BitVec 24) :
    w &&& 0x249249#24 = 0#24 ↔ ∀ k < 8, w.getLsbD (3 * k) = false := by
  rw [word24_eq_iff]
  refine forall₂_congr fun k hk => ?_
  obtain ⟨h0, h1, h2⟩ := lowMask_symbol k hk
  simp only [BitVec.getLsbD_and, BitVec.getLsbD_zero, h0, h1, h2, Bool.and_false, Bool.and_true, and_true]

/-- The inverse of the encoder: bit `k` is bit `3k+1` of the word. -/
def sourceByte (w : BitVec 24) : Byte := packByte ((List.range 8).map fun k => w.getLsbD (3 * k + 1))

theorem getLsbD_sourceByte (w : BitVec 24) {k : Nat} (hk : k < 8) :
    (sourceByte w).getLsbD k = w.getLsbD (3 * k + 1) := by
  rw [sourceByte, getLsbD_packByte _ hk]
  simp [List.getD_eq_getElem?_getD, hk]

theorem sourceByte_encWord (b : Byte) : sourceByte (encWord b) = b := by
  refine BitVec.eq_of_getLsbD_eq fun k hk => ?_
  rw [getLsbD_sourceByte _ hk]
  exact (encWord_symbol b hk).2.1

/-- A word is an encoding exactly when each symbol has its leading low and its trailing high. -/
theorem exists_encWord_eq_iff (w : BitVec 24) : (∃ b, encWord b = w) ↔
    (∀ k < 8, w.getLsbD (3 * k + 2) = true) ∧ ∀ k < 8, w.getLsbD (3 * k) = false := by
  constructor
  · rintro ⟨b, rfl⟩
    exact ⟨fun k hk => (encWord_symbol b hk).2.2, fun k hk => (encWord_symbol b hk).1⟩
  · rintro ⟨hhigh, hlow⟩
    refine ⟨sourceByte w, (word24_eq_iff _ _).2 fun k hk => ?_⟩
    obtain ⟨h0, h1, h2⟩ := encWord_symbol (sourceByte w) hk
    exact ⟨h0.trans (hlow k hk).symm, h1.trans (getLsbD_sourceByte w hk), h2.trans (hhigh k hk).symm⟩

/-- Settles O12: the word gives the byte back, and the two masks are the fixed bits of its symbols. -/
theorem encoderRangeAndInverse : Obligations.EncoderRangeAndInverse := by
  refine ⟨fun b b' h => ?_, fun b => ⟨_, _, _, rfl, fun k hk => (encWord_symbol b hk).2.1⟩, fun b0 b1 b2 => ?_⟩
  · have hword : encWord b = encWord b' := (encChannel_eq_iff_encWord b _ _ _).1 h
    rw [← sourceByte_encWord b, hword, sourceByte_encWord]
  · calc (∃ b, encChannel b = [b0, b1, b2])
      _ ↔ ∃ b, encWord b = b2 ++ b1 ++ b0 := exists_congr fun b => encChannel_eq_iff_encWord b b0 b1 b2
      _ ↔ _ := exists_encWord_eq_iff _
      _ ↔ _ := and_congr (and_highMask_iff _).symm (and_lowMask_iff _).symm

/-! ## Closed forms -/

theorem getLsbD_foldl_or {n : Nat} (f : Nat → BitVec n) (ks : List Nat) (w : BitVec n) (i : Nat) :
    (ks.foldl (fun w k => w ||| f k) w).getLsbD i = (w.getLsbD i || ks.any fun k => (f k).getLsbD i) := by
  induction ks generalizing w with
  | nil => simp
  | cons k ks ih => rw [List.foldl_cons, ih, BitVec.getLsbD_or, List.any_cons, Bool.or_assoc]

/-- One bit moved to place `m`. -/
theorem getLsbD_ofBool_shiftLeft {n : Nat} (d : Bool) (m i : Nat) :
    ((BitVec.ofBool d).setWidth n <<< m).getLsbD i = (decide (i < n ∧ i = m) && d) := by
  rw [BitVec.getLsbD_shiftLeft, BitVec.getLsbD_setWidth, BitVec.getLsbD_ofBool]
  by_cases hm : i = m
  · subst hm
    by_cases hn : i < n
    · simp [hn, Nat.zero_lt_of_lt hn]
    · simp [hn]
  · by_cases hlt : i < m
    · simp [hm, hlt]
    · simp [hm, show ¬ i - m = 0 by omega]

/-- The closed form: the fixed ones of every symbol, and each source bit at its place `3k+1`. -/
theorem encWord_eq_foldl (b : Byte) : encWord b = (List.range 8).foldl
    (fun (w : BitVec 24) k => w ||| ((BitVec.ofBool (b.getLsbD k)).setWidth 24 <<< (3 * k + 1))) 0x924924#24 := by
  rw [word24_eq_iff]
  intro k hk
  obtain ⟨h0, h1, h2⟩ := encWord_symbol b hk
  obtain ⟨m0, m1, m2⟩ := highMask_symbol k hk
  simp only [getLsbD_foldl_or, getLsbD_ofBool_shiftLeft, h0, h1, h2, m0, m1, m2, Bool.false_or, Bool.true_or, and_true]
  constructor
  · refine (List.any_eq_false.2 fun j _ => ?_).symm
    simp [show 3 * k ≠ 3 * j + 1 by omega]
  · rw [Bool.eq_iff_iff, List.any_eq_true]
    constructor
    · intro hb
      exact ⟨k, List.mem_range.2 hk, by simp [hb, show 3 * k + 1 < 24 by omega]⟩
    · rintro ⟨j, -, hj⟩
      obtain ⟨hplace, hb⟩ := Bool.and_eq_true_iff.1 hj
      have := of_decide_eq_true hplace
      rwa [show k = j by omega]

/-- Settles O11: the word is the closed form, and each byte has the symbol bits packed into it. -/
theorem encodeChannelClosedForm : Obligations.EncodeChannelClosedForm := by
  intro b s
  refine ⟨_, _, _, exec_encodeChannel b s, encWord_eq_foldl b, ?_, ?_, ?_⟩
  all_goals
    refine BitVec.eq_of_getLsbD_eq fun i hi => ?_
    rw [getLsbD_packByte _ hi, symbolSequence_eq]
    simp only [BitVec.getLsbD_or, getLsbD_ofBool_shiftLeft]
    interval_cases i <;> simp

end Sys2Proof.Machine

/-! The serial line (90_conflicts.md C1, 70_reset_and_hazards.md section 4): the bits of a payload under each bit order,
and how many native bit periods they take. -/

namespace Sys2Proof.Machine

/-! ## The bits of a packed byte on the line -/

theorem serialByte_lsbFirst_packByte (bits : List Bool) :
    serialByte .lsbFirst (packByte bits) = (List.range 8).map fun i => bits.getD i false :=
  List.map_congr_left fun _ hi => getLsbD_packByte bits (List.mem_range.1 hi)

theorem serialByte_msbFirst_packByte (bits : List Bool) :
    serialByte .msbFirst (packByte bits) = (List.range 8).map fun i => bits.getD (7 - i) false :=
  List.map_congr_left fun _ _ => getLsbD_packByte bits (by omega)

/-! ## The bits of an encoding on the line -/

theorem serialBits_encChannel (order : SinkBitOrder) (b : Byte) : serialBits order (encChannel b) =
    serialByte order (packByte (symbolSequence b)) ++ serialByte order (packByte ((symbolSequence b).drop 8)) ++
      serialByte order (packByte ((symbolSequence b).drop 16)) := by
  simp [serialBits, encChannel]

theorem serialBits_lsbFirst_encChannel (b : Byte) : serialBits .lsbFirst (encChannel b) = symbolSequence b := by
  simp only [serialBits_encChannel, serialByte_lsbFirst_packByte, symbolSequence_eq]
  rfl

theorem serialBits_msbFirst_encChannel (b : Byte) : serialBits .msbFirst (encChannel b) =
    [b.getLsbD 2, false, true, b.getLsbD 1, false, true, b.getLsbD 0, false,
     false, true, b.getLsbD 4, false, true, b.getLsbD 3, false, true,
     true, b.getLsbD 7, false, true, b.getLsbD 6, false, true, b.getLsbD 5] := by
  simp only [serialBits_encChannel, serialByte_msbFirst_packByte, symbolSequence_eq]
  rfl

/-- A payload's bits are those of its encodings, one after another. -/
theorem serialBits_flatMap_encChannel (order : SinkBitOrder) (channels : List Byte) :
    serialBits order (channels.flatMap encChannel) = channels.flatMap fun b => serialBits order (encChannel b) :=
  List.flatMap_assoc

/-- Settles O47: encoding by encoding, the symbol sequence in order, or each byte of it reversed. -/
theorem serialLineBits : Obligations.SerialLineBits := by
  intro channels
  rw [serialBits_flatMap_encChannel, serialBits_flatMap_encChannel]
  exact ⟨congrArg channels.flatMap (funext serialBits_lsbFirst_encChannel),
    congrArg channels.flatMap (funext serialBits_msbFirst_encChannel)⟩

/-! ## Native bit periods -/

theorem length_serialByte (order : SinkBitOrder) (v : Byte) : (serialByte order v).length = 8 := by
  cases order <;> rfl

theorem length_serialBits (order : SinkBitOrder) (payload : List Byte) :
    (serialBits order payload).length = 8 * payload.length := by
  simp only [serialBits, List.length_flatMap, length_serialByte, List.map_const', List.sum_replicate, smul_eq_mul,
    Nat.mul_comm]

/-- Settles O48: nine bytes of eight bits a colour, three bits a period. -/
theorem payloadNativePeriods : Obligations.PayloadNativePeriods := by
  intro order o cs
  rw [nativePeriods, length_serialBits, length_flatMap_pixelGroup]
  omega

end Sys2Proof.Machine
